-- ==== Sys2Proof/Word.lean ====
section
/-! DEFINITION. The widths of the machine's data (spec/00_scope.md R4, R7) and the type of character strings. -/

namespace Sys2Proof

/-- An 8-bit value: a register half, a memory byte, an opcode byte (`XLEN8`, R4). -/
abbrev Byte := BitVec 8

/-- A 16-bit value: PC, SP, a register pair, an address (`XLEN16`, R4). -/
abbrev Word := BitVec 16

/-- A character string of the trace log (R182): its characters in order.
Assumption log 14: a list of characters, which Lean's kernel evaluates, stands for the string. -/
abbrev Text := List Char

end Sys2Proof
end

