-- ==== Sys2Proof/Config.lean ====
section
/-! DEFINITION. What this hardware fixes once and for all (spec/00_scope.md R4): the memory's size, the entry state, the inert cycle figure that fits no descriptor.
The parameters of R4 that a test could show wrong (flag positions, lead bytes, opcode table, the legacy switch) stand in
Machine/Flags.lean, Decode.lean and Machine/StoreA.lean, where a repair can mend them. -/

namespace Sys2Proof.Config

/-- `MEM_SIZE` (R4, R40): addresses 0 to 65535. -/
abbrev memSize : Nat := 65536

/-- Six 16-bit register values preset before the first step (parameter `ENTRY`, R4, R204). -/
structure EntryState where
  af : Word
  bc : Word
  de : Word
  hl : Word
  sp : Word
  pc : Word
  deriving DecidableEq, Repr

/-- `ENTRY_DMG`, the one entry state the source gives (R204, R252). -/
def entryDmg : EntryState :=
  { af := 0x01B0, bc := 0x0013, de := 0x00D8, hl := 0x014D, sp := 0xFFFE, pc := 0x0100 }

/-- The second cycle figure of `JR NZ, r8`, taken (R264): the descriptor holds one integer, so it stands here.
Nothing reads it (assumption log 16). -/
def jrNzCyclesTaken : Int := 12

/-- The longest instruction of the baseline table, in bytes (R70, R71). -/
def longestInstr : Nat := 3

end Sys2Proof.Config
end

