-- ==== Sys2Proof/Syntax.lean ====
section
/-! DEFINITION. The instruction set as syntax: register, pair, flag and bank names (spec/10_state.md R10 to R14, spec/30_encoding.md R72),
one constructor of `Instr` per row of spec/opcode_table.json, effects as data (R75), and the row of the opcode table (R74). -/

namespace Sys2Proof

/-- The eight 8-bit registers (R10). -/
inductive Reg8 where
  | a | b | c | d | e | f | h | l
  deriving DecidableEq, Repr

/-- The seven registers an operand `r` of `XOR r` and `BIT b, r` may name; F is none of them (R80). -/
inductive Operand8 where
  | b | c | d | e | h | l | a
  deriving DecidableEq, Repr

/-- The four derived 16-bit views (R11). -/
inductive Pair where
  | af | bc | de | hl
  deriving DecidableEq, Repr

/-- The four named flags of F (R14). -/
inductive Flag where
  | z | n | h | c
  deriving DecidableEq, Repr

/-- The five opcode spaces (R72). -/
inductive Bank where
  | default | cb | dd | ed | fd
  deriving DecidableEq, Repr

/-- One constructor per row of spec/opcode_table.json; an immediate is the constructor's operand, at its full width. -/
inductive Instr where
  /-- `NOP` (R170). -/
  | nop
  /-- `LD BC, nn` (R120). -/
  | ldBcNn (nn : Word)
  /-- `LD (BC), A` (R131). -/
  | ldIndBcA
  /-- `LD DE, nn` (R121). -/
  | ldDeNn (nn : Word)
  /-- `LD (DE), A` (R132). -/
  | ldIndDeA
  /-- `JR NZ, r8` (R160). -/
  | jrNzR8 (r8 : Byte)
  /-- `LD HL, nn` (R122). -/
  | ldHlNn (nn : Word)
  /-- `LD (HL+), A` (R133). -/
  | ldIndHlIncA
  /-- `LD SP, nn` (R123). -/
  | ldSpNn (nn : Word)
  /-- `LD (HL-), A` (R134). -/
  | ldIndHlDecA
  /-- `XOR B` (R141). -/
  | xorB
  /-- `XOR C` (R142). -/
  | xorC
  /-- `XOR D` (R143). -/
  | xorD
  /-- `XOR E` (R144). -/
  | xorE
  /-- `XOR H` (R145). -/
  | xorH
  /-- `XOR L` (R146). -/
  | xorL
  /-- `XOR A` (R147). -/
  | xorA
  /-- `JP a16` (R161). -/
  | jpA16 (a16 : Word)
  /-- `BIT 0, B` (R150). -/
  | bit0B
  /-- `BIT 0, C` (R150). -/
  | bit0C
  /-- `BIT 0, D` (R150). -/
  | bit0D
  /-- `BIT 0, E` (R150). -/
  | bit0E
  /-- `BIT 0, H` (R150). -/
  | bit0H
  /-- `BIT 0, L` (R150). -/
  | bit0L
  /-- `BIT 0, A` (R150). -/
  | bit0A
  /-- `BIT 1, B` (R150). -/
  | bit1B
  /-- `BIT 1, C` (R150). -/
  | bit1C
  /-- `BIT 1, D` (R150). -/
  | bit1D
  /-- `BIT 1, E` (R150). -/
  | bit1E
  /-- `BIT 1, H` (R150). -/
  | bit1H
  /-- `BIT 1, L` (R150). -/
  | bit1L
  /-- `BIT 1, A` (R150). -/
  | bit1A
  /-- `BIT 2, B` (R150). -/
  | bit2B
  /-- `BIT 2, C` (R150). -/
  | bit2C
  /-- `BIT 2, D` (R150). -/
  | bit2D
  /-- `BIT 2, E` (R150). -/
  | bit2E
  /-- `BIT 2, H` (R150). -/
  | bit2H
  /-- `BIT 2, L` (R150). -/
  | bit2L
  /-- `BIT 2, A` (R150). -/
  | bit2A
  /-- `BIT 3, B` (R150). -/
  | bit3B
  /-- `BIT 3, C` (R150). -/
  | bit3C
  /-- `BIT 3, D` (R150). -/
  | bit3D
  /-- `BIT 3, E` (R150). -/
  | bit3E
  /-- `BIT 3, H` (R150). -/
  | bit3H
  /-- `BIT 3, L` (R150). -/
  | bit3L
  /-- `BIT 3, A` (R150). -/
  | bit3A
  /-- `BIT 4, B` (R150). -/
  | bit4B
  /-- `BIT 4, C` (R150). -/
  | bit4C
  /-- `BIT 4, D` (R150). -/
  | bit4D
  /-- `BIT 4, E` (R150). -/
  | bit4E
  /-- `BIT 4, H` (R150). -/
  | bit4H
  /-- `BIT 4, L` (R150). -/
  | bit4L
  /-- `BIT 4, A` (R150). -/
  | bit4A
  /-- `BIT 5, B` (R150). -/
  | bit5B
  /-- `BIT 5, C` (R150). -/
  | bit5C
  /-- `BIT 5, D` (R150). -/
  | bit5D
  /-- `BIT 5, E` (R150). -/
  | bit5E
  /-- `BIT 5, H` (R150). -/
  | bit5H
  /-- `BIT 5, L` (R150). -/
  | bit5L
  /-- `BIT 5, A` (R150). -/
  | bit5A
  /-- `BIT 6, B` (R150). -/
  | bit6B
  /-- `BIT 6, C` (R150). -/
  | bit6C
  /-- `BIT 6, D` (R150). -/
  | bit6D
  /-- `BIT 6, E` (R150). -/
  | bit6E
  /-- `BIT 6, H` (R150). -/
  | bit6H
  /-- `BIT 6, L` (R150). -/
  | bit6L
  /-- `BIT 6, A` (R150). -/
  | bit6A
  /-- `BIT 7, B` (R150). -/
  | bit7B
  /-- `BIT 7, C` (R150). -/
  | bit7C
  /-- `BIT 7, D` (R150). -/
  | bit7D
  /-- `BIT 7, E` (R150). -/
  | bit7E
  /-- `BIT 7, H` (R150). -/
  | bit7H
  /-- `BIT 7, L` (R150). -/
  | bit7L
  /-- `BIT 7, A` (R150). -/
  | bit7A
  deriving DecidableEq, Repr

/-- How many immediate bytes an instruction's effect reads at `pc` (R73: a property of the table entry; R76, R77). -/
def Instr.operandBytes : Instr → Nat
  | .ldBcNn _ | .ldDeNn _ | .ldHlNn _ | .ldSpNn _ | .jpA16 _ => 2
  | .jrNzR8 _ => 1
  | .nop | .ldIndBcA | .ldIndDeA | .ldIndHlIncA | .ldIndHlDecA | .xorB | .xorC
  | .xorD | .xorE | .xorH | .xorL | .xorA | .bit0B | .bit0C
  | .bit0D | .bit0E | .bit0H | .bit0L | .bit0A | .bit1B | .bit1C
  | .bit1D | .bit1E | .bit1H | .bit1L | .bit1A | .bit2B | .bit2C
  | .bit2D | .bit2E | .bit2H | .bit2L | .bit2A | .bit3B | .bit3C
  | .bit3D | .bit3E | .bit3H | .bit3L | .bit3A | .bit4B | .bit4C
  | .bit4D | .bit4E | .bit4H | .bit4L | .bit4A | .bit5B | .bit5C
  | .bit5D | .bit5E | .bit5H | .bit5L | .bit5A | .bit6B | .bit6C
  | .bit6D | .bit6E | .bit6H | .bit6L | .bit6A | .bit7B | .bit7C
  | .bit7D | .bit7E | .bit7H | .bit7L | .bit7A => 0

/-! ## Effects (R75) -/

/-- An expression of an effect: a value computed from the registers and from the values the effect has read or named so far
(`slot k`, the latest being `slot 0`). Values are integers; a write narrows them to the register's or the byte's width (R24). -/
inductive EffectExpr where
  | const (k : Int)
  | slot (k : Nat)
  | reg (r : Reg8)
  | pair (p : Pair)
  | sp
  | pc
  /-- 1 where the flag is set, else 0. -/
  | flag (fl : Flag)
  | add (x y : EffectExpr)
  | sub (x y : EffectExpr)
  | mul (x y : EffectExpr)
  | div (x y : EffectExpr)
  | mod (x y : EffectExpr)
  | and (x y : EffectExpr)
  | or (x y : EffectExpr)
  | xor (x y : EffectExpr)
  /-- 1 where `x < y`, else 0. -/
  | lt (x y : EffectExpr)
  /-- 1 where `x = y`, else 0. -/
  | eq (x y : EffectExpr)
  deriving DecidableEq, Repr

/-- One operation of an effect. The first five name a value, the latest slot. "An effect's whole interface is: read and write
registers, call the memory accessors, and either finish or raise `OutOfBounds`" (R75); of the five accessors `load` is the host's, issued
"never by an instruction" (R48). -/
inductive EffectOp where
  | bind (e : EffectExpr)
  | imm8
  | imm16
  | readByte (addr : EffectExpr)
  | readWord (addr : EffectExpr)
  | writeByte (addr v : EffectExpr)
  | writeWord (addr v : EffectExpr)
  | setReg (r : Reg8) (v : EffectExpr)
  | setPair (p : Pair) (v : EffectExpr)
  | setSp (v : EffectExpr)
  | setPc (v : EffectExpr)
  /-- Sets the flag where `v` is not 0, else clears it. -/
  | setFlag (fl : Flag) (v : EffectExpr)
  deriving DecidableEq, Repr

/-- An effect as plain data: "a self-contained function of the Register Bank and Memory" (R75). Every such function can be written
(`Sys2Proof.Machine.every_transformation_is_an_effect`; assumption log 12). -/
inductive Effect where
  | done
  | andThen (op : EffectOp) (next : Effect)
  /-- `yes` where the condition is not 0, else `no`. -/
  | branch (cond : EffectExpr) (yes no : Effect)
  deriving DecidableEq, Repr

/-- The effect of a table entry: that of an instruction of this version, whose meaning is `exec`, or one written out (R75, R201, D6).
An immediate standing in `instr` is a placeholder; the one at `pc` is read when the effect runs. -/
inductive RowEffect where
  | instr (i : Instr)
  | written (e : Effect)
  deriving DecidableEq, Repr

/-- An entry of the opcode table: its key and the Instruction stored there (R74, R75), "(bank, opcode, mnemonic, cycles, effect)".
`mnemonic` and `cycles` are read by no rule (R75). -/
structure TableRow where
  bank     : Bank
  opcode   : Byte
  mnemonic : String
  cycles   : Int
  effect   : RowEffect
  deriving DecidableEq, Repr

/-- The opcode table (R74): a partial mapping from (bank, opcode), held as its entries. -/
abbrev OpcodeTable := List TableRow

end Sys2Proof
end

