-- ==== Sys2Proof/WellFormed.lean ====
section
/-! DEFINITION. Well-formed terms. An `Instr` carries operands of exactly the width the encoding gives them, so "an out-of-range argument
cannot be expressed" (spec/10_state.md R24) and every instruction is well-formed. An opcode table is well-formed
when no key occurs twice (spec/48_host_operations.md R201, R74: a mapping). -/

namespace Sys2Proof

/-- Every instruction of the syntax is well-formed: the operand types leave nothing to check (R24). -/
def Instr.wellFormed (_ : Instr) : Bool := true

/-- Whether an entry is the one for (bank, opcode). -/
def TableRow.hasKey (r : TableRow) (bank : Bank) (opcode : Byte) : Bool :=
  r.bank == bank && r.opcode == opcode

/-- No two entries have one key (R74 "a mapping keyed by (prefix-bank identifier, opcode byte)"; R201 "no key occurring twice"). -/
def tableWellFormed : OpcodeTable → Bool
  | [] => true
  | r :: t => t.all (fun q => !q.hasKey r.bank r.opcode) && tableWellFormed t

end Sys2Proof
end

