-- ==== Sys2Proof/Decode.lean ====
section
/-! DEFINITION. Encoding (spec/30_encoding.md): the four lead bytes, the baseline opcode table B0, lookup and registration, the decoder, total
on any bytes, and the encoder. The opcode bytes and lead bytes are the spec's decisions D2, D5, D6
(assumption log 4 and 5). -/

namespace Sys2Proof

/-! ## Bytes of a 16-bit value (little-endian, R49) -/

/-- Bits 7 to 0 of a word. -/
def lowByte (v : Word) : Byte := v.extractLsb' 0 8

/-- Bits 15 to 8 of a word. -/
def highByte (v : Word) : Byte := v.extractLsb' 8 8

/-- `{hi, lo}` of R7: the word whose low byte is `lo`. -/
def wordOf (hi lo : Byte) : Word := hi ++ lo

/-! ## Prefix bytes and the opcode table -/

/-- `PREFIX_BYTES` (R6, R72): the bank a lead byte selects, `none` where the byte is no lead byte. -/
def prefixBank (b : Byte) : Option Bank :=
  if b = 0xCB then some .cb
  else if b = 0xDD then some .dd
  else if b = 0xED then some .ed
  else if b = 0xFD then some .fd
  else none

/-- The `default` bank of the baseline table (R81). -/
def defaultRows : OpcodeTable :=
  [ ⟨.default, 0x00, "NOP", 4, .instr .nop⟩,
    ⟨.default, 0x01, "LD BC, nn", 12, .instr (.ldBcNn 0)⟩,
    ⟨.default, 0x02, "LD (BC), A", 8, .instr .ldIndBcA⟩,
    ⟨.default, 0x11, "LD DE, nn", 12, .instr (.ldDeNn 0)⟩,
    ⟨.default, 0x12, "LD (DE), A", 8, .instr .ldIndDeA⟩,
    ⟨.default, 0x20, "JR NZ, r8", 8, .instr (.jrNzR8 0)⟩,
    ⟨.default, 0x21, "LD HL, nn", 12, .instr (.ldHlNn 0)⟩,
    ⟨.default, 0x22, "LD (HL+), A", 8, .instr .ldIndHlIncA⟩,
    ⟨.default, 0x31, "LD SP, nn", 12, .instr (.ldSpNn 0)⟩,
    ⟨.default, 0x32, "LD (HL-), A", 8, .instr .ldIndHlDecA⟩,
    ⟨.default, 0xA8, "XOR B", 4, .instr .xorB⟩,
    ⟨.default, 0xA9, "XOR C", 4, .instr .xorC⟩,
    ⟨.default, 0xAA, "XOR D", 4, .instr .xorD⟩,
    ⟨.default, 0xAB, "XOR E", 4, .instr .xorE⟩,
    ⟨.default, 0xAC, "XOR H", 4, .instr .xorH⟩,
    ⟨.default, 0xAD, "XOR L", 4, .instr .xorL⟩,
    ⟨.default, 0xAF, "XOR A", 4, .instr .xorA⟩,
    ⟨.default, 0xC3, "JP a16", 16, .instr (.jpA16 0)⟩ ]

/-- Bank `CB`, b = 0 (R82). -/
def bitRows0 : OpcodeTable :=
  [ ⟨.cb, 0x40, "BIT 0, B", 8, .instr .bit0B⟩,
    ⟨.cb, 0x41, "BIT 0, C", 8, .instr .bit0C⟩,
    ⟨.cb, 0x42, "BIT 0, D", 8, .instr .bit0D⟩,
    ⟨.cb, 0x43, "BIT 0, E", 8, .instr .bit0E⟩,
    ⟨.cb, 0x44, "BIT 0, H", 8, .instr .bit0H⟩,
    ⟨.cb, 0x45, "BIT 0, L", 8, .instr .bit0L⟩,
    ⟨.cb, 0x47, "BIT 0, A", 8, .instr .bit0A⟩ ]

/-- Bank `CB`, b = 1 (R82). -/
def bitRows1 : OpcodeTable :=
  [ ⟨.cb, 0x48, "BIT 1, B", 8, .instr .bit1B⟩,
    ⟨.cb, 0x49, "BIT 1, C", 8, .instr .bit1C⟩,
    ⟨.cb, 0x4A, "BIT 1, D", 8, .instr .bit1D⟩,
    ⟨.cb, 0x4B, "BIT 1, E", 8, .instr .bit1E⟩,
    ⟨.cb, 0x4C, "BIT 1, H", 8, .instr .bit1H⟩,
    ⟨.cb, 0x4D, "BIT 1, L", 8, .instr .bit1L⟩,
    ⟨.cb, 0x4F, "BIT 1, A", 8, .instr .bit1A⟩ ]

/-- Bank `CB`, b = 2 (R82). -/
def bitRows2 : OpcodeTable :=
  [ ⟨.cb, 0x50, "BIT 2, B", 8, .instr .bit2B⟩,
    ⟨.cb, 0x51, "BIT 2, C", 8, .instr .bit2C⟩,
    ⟨.cb, 0x52, "BIT 2, D", 8, .instr .bit2D⟩,
    ⟨.cb, 0x53, "BIT 2, E", 8, .instr .bit2E⟩,
    ⟨.cb, 0x54, "BIT 2, H", 8, .instr .bit2H⟩,
    ⟨.cb, 0x55, "BIT 2, L", 8, .instr .bit2L⟩,
    ⟨.cb, 0x57, "BIT 2, A", 8, .instr .bit2A⟩ ]

/-- Bank `CB`, b = 3 (R82). -/
def bitRows3 : OpcodeTable :=
  [ ⟨.cb, 0x58, "BIT 3, B", 8, .instr .bit3B⟩,
    ⟨.cb, 0x59, "BIT 3, C", 8, .instr .bit3C⟩,
    ⟨.cb, 0x5A, "BIT 3, D", 8, .instr .bit3D⟩,
    ⟨.cb, 0x5B, "BIT 3, E", 8, .instr .bit3E⟩,
    ⟨.cb, 0x5C, "BIT 3, H", 8, .instr .bit3H⟩,
    ⟨.cb, 0x5D, "BIT 3, L", 8, .instr .bit3L⟩,
    ⟨.cb, 0x5F, "BIT 3, A", 8, .instr .bit3A⟩ ]

/-- Bank `CB`, b = 4 (R82). -/
def bitRows4 : OpcodeTable :=
  [ ⟨.cb, 0x60, "BIT 4, B", 8, .instr .bit4B⟩,
    ⟨.cb, 0x61, "BIT 4, C", 8, .instr .bit4C⟩,
    ⟨.cb, 0x62, "BIT 4, D", 8, .instr .bit4D⟩,
    ⟨.cb, 0x63, "BIT 4, E", 8, .instr .bit4E⟩,
    ⟨.cb, 0x64, "BIT 4, H", 8, .instr .bit4H⟩,
    ⟨.cb, 0x65, "BIT 4, L", 8, .instr .bit4L⟩,
    ⟨.cb, 0x67, "BIT 4, A", 8, .instr .bit4A⟩ ]

/-- Bank `CB`, b = 5 (R82). -/
def bitRows5 : OpcodeTable :=
  [ ⟨.cb, 0x68, "BIT 5, B", 8, .instr .bit5B⟩,
    ⟨.cb, 0x69, "BIT 5, C", 8, .instr .bit5C⟩,
    ⟨.cb, 0x6A, "BIT 5, D", 8, .instr .bit5D⟩,
    ⟨.cb, 0x6B, "BIT 5, E", 8, .instr .bit5E⟩,
    ⟨.cb, 0x6C, "BIT 5, H", 8, .instr .bit5H⟩,
    ⟨.cb, 0x6D, "BIT 5, L", 8, .instr .bit5L⟩,
    ⟨.cb, 0x6F, "BIT 5, A", 8, .instr .bit5A⟩ ]

/-- Bank `CB`, b = 6 (R82). -/
def bitRows6 : OpcodeTable :=
  [ ⟨.cb, 0x70, "BIT 6, B", 8, .instr .bit6B⟩,
    ⟨.cb, 0x71, "BIT 6, C", 8, .instr .bit6C⟩,
    ⟨.cb, 0x72, "BIT 6, D", 8, .instr .bit6D⟩,
    ⟨.cb, 0x73, "BIT 6, E", 8, .instr .bit6E⟩,
    ⟨.cb, 0x74, "BIT 6, H", 8, .instr .bit6H⟩,
    ⟨.cb, 0x75, "BIT 6, L", 8, .instr .bit6L⟩,
    ⟨.cb, 0x77, "BIT 6, A", 8, .instr .bit6A⟩ ]

/-- Bank `CB`, b = 7 (R82). -/
def bitRows7 : OpcodeTable :=
  [ ⟨.cb, 0x78, "BIT 7, B", 8, .instr .bit7B⟩,
    ⟨.cb, 0x79, "BIT 7, C", 8, .instr .bit7C⟩,
    ⟨.cb, 0x7A, "BIT 7, D", 8, .instr .bit7D⟩,
    ⟨.cb, 0x7B, "BIT 7, E", 8, .instr .bit7E⟩,
    ⟨.cb, 0x7C, "BIT 7, H", 8, .instr .bit7H⟩,
    ⟨.cb, 0x7D, "BIT 7, L", 8, .instr .bit7L⟩,
    ⟨.cb, 0x7F, "BIT 7, A", 8, .instr .bit7A⟩ ]

/-- The baseline table B0: 18 entries in `default`, 56 in `CB`, none in `DD`, `ED`, `FD` (R3, R81 to R83). -/
def baselineTable : OpcodeTable :=
  defaultRows ++ bitRows0 ++ bitRows1 ++ bitRows2 ++ bitRows3 ++ bitRows4 ++ bitRows5 ++ bitRows6 ++ bitRows7

/-- The table's `lookup(bank, opcode) -> Instruction | absent` (R74, R103). -/
def lookup (t : OpcodeTable) (bank : Bank) (opcode : Byte) : Option TableRow :=
  t.find? (fun r => r.hasKey bank opcode)

/-- The table's `register` (R74, R201): "later registrations replace earlier ones". -/
def registerRow (t : OpcodeTable) (row : TableRow) : OpcodeTable :=
  row :: t.filter (fun r => !r.hasKey row.bank row.opcode)

/-! ## Decoding -/

/-- Why the decoder gives no instruction. -/
inductive DecodeError where
  /-- (bank, opcode) has no table entry (R84): the engine raises `UnimplementedOpcode` (R104). -/
  | unassigned (bank : Bank) (opcode : Byte)
  /-- The entry's effect is a written one, not that of an instruction of the syntax: its immediates are its own to read (R75). -/
  | otherEffect (bank : Bank) (opcode : Byte)
  /-- The list ends before the instruction does; the engine's own fetches never run out of bytes. -/
  | truncated
  deriving DecidableEq, Repr

/-- The instruction with the immediate that the bytes `lo`, `hi` after its opcode spell (R71: `r8` is byte `lo`;
`nn` and `a16` have `lo` as their low byte). An instruction without an immediate is itself. -/
def Instr.withOperand (i : Instr) (lo hi : Byte) : Instr :=
  match i with
  | .ldBcNn _ => .ldBcNn (wordOf hi lo)
  | .ldDeNn _ => .ldDeNn (wordOf hi lo)
  | .ldHlNn _ => .ldHlNn (wordOf hi lo)
  | .ldSpNn _ => .ldSpNn (wordOf hi lo)
  | .jpA16 _ => .jpA16 (wordOf hi lo)
  | .jrNzR8 _ => .jrNzR8 lo
  | j => j

/-- The entry's instruction with its immediate taken from the front of `rest` (R73). -/
def decodeOperand (i : Instr) (rest : List Byte) : Except DecodeError (Instr × List Byte) :=
  match i.operandBytes, rest with
  | 0, r => .ok (i.withOperand 0 0, r)
  | 1, lo :: r => .ok (i.withOperand lo 0, r)
  | _, lo :: hi :: r => .ok (i.withOperand lo hi, r)
  | _, _ => .error .truncated

/-- Lookup of (bank, opcode) and then the immediate. -/
def decodeIn (t : OpcodeTable) (bank : Bank) (opcode : Byte) (rest : List Byte) :
    Except DecodeError (Instr × List Byte) :=
  match lookup t bank opcode with
  | none => .error (.unassigned bank opcode)
  | some row =>
    match row.effect with
    | .instr i => decodeOperand i rest
    | .written _ => .error (.otherEffect bank opcode)

/-- The decoder over any table (R70, R72, R73): the instruction at the front of a byte sequence, with the bytes after it.
Resolution has one level: the byte after a lead byte is the opcode, whatever it is. -/
def decodeWith (t : OpcodeTable) (bytes : List Byte) : Except DecodeError (Instr × List Byte) :=
  match bytes with
  | [] => .error .truncated
  | b0 :: rest =>
    match prefixBank b0 with
    | none => decodeIn t .default b0 rest
    | some bank =>
      match rest with
      | [] => .error .truncated
      | opcode :: rest' => decodeIn t bank opcode rest'

/-- The decoder over the baseline table. -/
def decode (bytes : List Byte) : Except DecodeError (Instr × List Byte) :=
  decodeWith baselineTable bytes

/-- How many bytes lead up to and include the opcode byte (R73): 2 after a lead byte, else 1. -/
def headerBytes (b0 : Byte) : Nat :=
  if (prefixBank b0).isSome then 2 else 1

/-! ## Encoding, from the fields of R80 -/

/-- The 3-bit register code `rrr` (R80); code 6 is not assigned. -/
def Operand8.code : Operand8 → BitVec 3
  | .b => 0
  | .c => 1
  | .d => 2
  | .e => 3
  | .h => 4
  | .l => 5
  | .a => 7

/-- `0 0 p p 0 0 0 1` (R80). -/
def ldPairOpcode (pp : BitVec 2) : Byte := (0b00#2 ++ pp) ++ 0b0001#4

/-- `0 0 p p 0 0 1 0` (R80). -/
def storeAOpcode (pp : BitVec 2) : Byte := (0b00#2 ++ pp) ++ 0b0010#4

/-- `1 0 1 0 1 r r r` (R80). -/
def xorOpcode (r : Operand8) : Byte := 0b10101#5 ++ r.code

/-- `0 1 b b b r r r` (R80, R82). -/
def bitOpcode (b : BitVec 3) (r : Operand8) : Byte := (0b01#2 ++ b) ++ r.code

/-- The bytes of an instruction in memory order (R71). -/
def encode : Instr → List Byte
  | .nop => [0b00000000]
  | .ldBcNn nn => [ldPairOpcode 0, lowByte nn, highByte nn]
  | .ldIndBcA => [storeAOpcode 0]
  | .ldDeNn nn => [ldPairOpcode 1, lowByte nn, highByte nn]
  | .ldIndDeA => [storeAOpcode 1]
  | .jrNzR8 r8 => [0b00100000, r8]
  | .ldHlNn nn => [ldPairOpcode 2, lowByte nn, highByte nn]
  | .ldIndHlIncA => [storeAOpcode 2]
  | .ldSpNn nn => [ldPairOpcode 3, lowByte nn, highByte nn]
  | .ldIndHlDecA => [storeAOpcode 3]
  | .xorB => [xorOpcode .b]
  | .xorC => [xorOpcode .c]
  | .xorD => [xorOpcode .d]
  | .xorE => [xorOpcode .e]
  | .xorH => [xorOpcode .h]
  | .xorL => [xorOpcode .l]
  | .xorA => [xorOpcode .a]
  | .jpA16 a16 => [0b11000011, lowByte a16, highByte a16]
  | .bit0B => [0xCB, bitOpcode 0 .b]
  | .bit0C => [0xCB, bitOpcode 0 .c]
  | .bit0D => [0xCB, bitOpcode 0 .d]
  | .bit0E => [0xCB, bitOpcode 0 .e]
  | .bit0H => [0xCB, bitOpcode 0 .h]
  | .bit0L => [0xCB, bitOpcode 0 .l]
  | .bit0A => [0xCB, bitOpcode 0 .a]
  | .bit1B => [0xCB, bitOpcode 1 .b]
  | .bit1C => [0xCB, bitOpcode 1 .c]
  | .bit1D => [0xCB, bitOpcode 1 .d]
  | .bit1E => [0xCB, bitOpcode 1 .e]
  | .bit1H => [0xCB, bitOpcode 1 .h]
  | .bit1L => [0xCB, bitOpcode 1 .l]
  | .bit1A => [0xCB, bitOpcode 1 .a]
  | .bit2B => [0xCB, bitOpcode 2 .b]
  | .bit2C => [0xCB, bitOpcode 2 .c]
  | .bit2D => [0xCB, bitOpcode 2 .d]
  | .bit2E => [0xCB, bitOpcode 2 .e]
  | .bit2H => [0xCB, bitOpcode 2 .h]
  | .bit2L => [0xCB, bitOpcode 2 .l]
  | .bit2A => [0xCB, bitOpcode 2 .a]
  | .bit3B => [0xCB, bitOpcode 3 .b]
  | .bit3C => [0xCB, bitOpcode 3 .c]
  | .bit3D => [0xCB, bitOpcode 3 .d]
  | .bit3E => [0xCB, bitOpcode 3 .e]
  | .bit3H => [0xCB, bitOpcode 3 .h]
  | .bit3L => [0xCB, bitOpcode 3 .l]
  | .bit3A => [0xCB, bitOpcode 3 .a]
  | .bit4B => [0xCB, bitOpcode 4 .b]
  | .bit4C => [0xCB, bitOpcode 4 .c]
  | .bit4D => [0xCB, bitOpcode 4 .d]
  | .bit4E => [0xCB, bitOpcode 4 .e]
  | .bit4H => [0xCB, bitOpcode 4 .h]
  | .bit4L => [0xCB, bitOpcode 4 .l]
  | .bit4A => [0xCB, bitOpcode 4 .a]
  | .bit5B => [0xCB, bitOpcode 5 .b]
  | .bit5C => [0xCB, bitOpcode 5 .c]
  | .bit5D => [0xCB, bitOpcode 5 .d]
  | .bit5E => [0xCB, bitOpcode 5 .e]
  | .bit5H => [0xCB, bitOpcode 5 .h]
  | .bit5L => [0xCB, bitOpcode 5 .l]
  | .bit5A => [0xCB, bitOpcode 5 .a]
  | .bit6B => [0xCB, bitOpcode 6 .b]
  | .bit6C => [0xCB, bitOpcode 6 .c]
  | .bit6D => [0xCB, bitOpcode 6 .d]
  | .bit6E => [0xCB, bitOpcode 6 .e]
  | .bit6H => [0xCB, bitOpcode 6 .h]
  | .bit6L => [0xCB, bitOpcode 6 .l]
  | .bit6A => [0xCB, bitOpcode 6 .a]
  | .bit7B => [0xCB, bitOpcode 7 .b]
  | .bit7C => [0xCB, bitOpcode 7 .c]
  | .bit7D => [0xCB, bitOpcode 7 .d]
  | .bit7E => [0xCB, bitOpcode 7 .e]
  | .bit7H => [0xCB, bitOpcode 7 .h]
  | .bit7L => [0xCB, bitOpcode 7 .l]
  | .bit7A => [0xCB, bitOpcode 7 .a]

/-- The whole instruction's length in bytes (R18, R71): header and immediate. -/
def Instr.length (i : Instr) : Nat :=
  headerBytes ((encode i).headD 0) + i.operandBytes

/-! ## A word of the opcode table as bytes -/

/-- Byte `k` of an `n`-byte instruction written as one number "whose most significant byte is byte 0" (R87). -/
def tableByte (n w k : Nat) : Byte := BitVec.ofNat 8 (w >>> (8 * (n - 1 - k)))

/-- The bytes, lowest address first, of an instruction of `nbits` bits given as spec/opcode_table.json numbers them: byte 0
is the most significant (R87; assumption log 10), then zeros up to the longest instruction. -/
def tableBytes (nbits w : Nat) : List Byte :=
  (List.range (nbits / 8)).map (tableByte (nbits / 8) w) ++ List.replicate (Config.longestInstr - nbits / 8) 0

/-- The instruction the decoder reads from a word of the opcode table. -/
def decodeTableWord (nbits w : Nat) : Option Instr :=
  match decode (tableBytes nbits w) with
  | .ok (i, _) => some i
  | .error _ => none

end Sys2Proof
end

