-- ==== Sys2Proof/Machine/State.lean ====
section
/-! DEFINITION. The state of a Machine (spec/10_state.md R10 to R30, spec/20_memory.md R40, spec/47_trace_log.md R180, spec/60_exceptions.md R220),
the three fatal conditions, and the reset state. -/

namespace Sys2Proof.Machine

/-- The three fatal conditions (R220), with the information each carries. A fatal is LATCHED in the state: the step that
raises it answers a next state (R107 "the next state with one fatal latched"; assumption log 1). No step answers
`Host.Outcome.fault`, so these constructors stand in the latch and in the accessors' results only. -/
inductive Fault where
  /-- Raised by Lookup where (bank, opcode) has no entry (R104, R221). Safe: the run ends. -/
  | unimplementedOpcode (bank : Bank) (opcode : Byte)
  /-- Raised by the memory accessors and `load` (R44 to R48, R222): the address or offset and the size in bytes. Safe: the run ends. -/
  | outOfBounds (addr : Int) (size : Nat)
  /-- Raised by `TraceRecord` (R183, R185, R223): the 0-based index, the expected and the recorded string. Safe: the run ends. -/
  | traceMismatch (index : Nat) (expected actual : Text)
  deriving DecidableEq, Repr

/-- Reasons to refuse an instruction. -/
inductive Refusal where
  /-- Raised by `exec` for an instruction with no meaning yet. Safe. No arm answers it: all 74 have their meaning. -/
  | notModelled (mnemonic : String)
  deriving DecidableEq, Repr

/-- The memory's contents (R40): (address, byte) pairs, addresses rising, none holding the byte an unlisted address reads as. -/
abbrev Memory := List Host.Cell

/-- A Machine (R25, R30): the register bank, the memory, the opcode table, the trace log and the fatal latch. -/
structure State where
  /-- The eight 8-bit registers (R10). -/
  a : Byte
  b : Byte
  c : Byte
  d : Byte
  e : Byte
  /-- The flag register; its low nibble is zero in every state a Machine reaches (R13). -/
  f : Byte
  h : Byte
  l : Byte
  /-- The two 16-bit registers (R16). -/
  sp : Word
  pc : Word
  /-- 65536 bytes (R40). -/
  mem : Memory
  /-- The log's snapshots, oldest first (R180). -/
  trace : List Text
  /-- "A running count of instructions executed": the number of records (R180). -/
  count : Nat
  /-- The latch (R220). -/
  fatal : Option Fault
  /-- Whether the host's `startup()` has been called (R206); nothing reads it. -/
  started : Bool
  /-- The opcode table, constant after the first step (R26, R74, R201; assumption log 11). -/
  table : OpcodeTable
  /-- The expected sequence, constant after the first record (R26, R180, R205; assumption log 11). -/
  expected : Option (List Text)
  deriving DecidableEq, Repr

/-- `Construct()` (R200): "every register 0, every memory byte 0, empty trace, `count` 0, no fatal, empty opcode table, no expected
sequence". -/
def State.construct : State :=
  { a := 0, b := 0, c := 0, d := 0, e := 0, f := 0, h := 0, l := 0, sp := 0, pc := 0
    mem := [], trace := [], count := 0, fatal := none, started := false, table := [], expected := none }

/-- The reset state (R30, R250): the constructed Machine with its opcode table populated, "for this version ... the baseline table
B0" (R30; assumption log 11). -/
def State.reset : State :=
  { a := 0, b := 0, c := 0, d := 0, e := 0, f := 0, h := 0, l := 0, sp := 0, pc := 0
    mem := [], trace := [], count := 0, fatal := none, started := false, table := baselineTable, expected := none }

/-- What executing an instruction answers. -/
abbrev Outcome := Host.Outcome State Fault Refusal

end Sys2Proof.Machine
end

