-- ==== Sys2Proof/Machine/Ops.lean ====
section
/-! DEFINITION. The shared operations: memory and its five accessors (spec/20_memory.md R40 to R48), raising a fatal (spec/60_exceptions.md R220),
advancing `pc` (spec/10_state.md R19), the immediates (spec/30_encoding.md R76, R77) and the store of A. -/

namespace Sys2Proof.Machine

/-! ## Memory as a canonical list -/

/-- What an address that is not listed reads as: memory is "zero-initialized at construction" (R40). -/
def unlistedByte : Byte := 0#8

/-- The byte at an address. -/
def Memory.peek : Memory → Nat → Byte
  | [], _ => unlistedByte
  | (k, v) :: m, addr => if k = addr then v else Memory.peek m addr

/-- The memory with the byte at an address replaced, in canonical form. -/
def Memory.poke : Memory → Nat → Byte → Memory
  | [], addr, v => if v = unlistedByte then [] else [(addr, v)]
  | (k, x) :: m, addr, v =>
    if addr < k then
      if v = unlistedByte then (k, x) :: m else (addr, v) :: (k, x) :: m
    else if addr = k then
      if v = unlistedByte then m else (addr, v) :: m
    else (k, x) :: Memory.poke m addr v

/-- The canonical form from address `lo` on: addresses strictly rising, inside the memory, no byte an unlisted address reads as. -/
def Memory.wfFrom : Nat → Memory → Bool
  | _, [] => true
  | lo, (k, v) :: m => lo ≤ k && k < Config.memSize && v != unlistedByte && Memory.wfFrom (k + 1) m

/-- The canonical form of a memory. -/
def Memory.wf (m : Memory) : Bool := Memory.wfFrom 0 m

/-- Consecutive bytes written from an address up (the copy of R48). -/
def Memory.pokeAll : Memory → Nat → List Byte → Memory
  | m, _, [] => m
  | m, addr, v :: vs => Memory.pokeAll (Memory.poke m addr v) (addr + 1) vs

/-! ## The accessors; an address is an integer that need not fit 16 bits (R43) -/

/-- Whether `size` bytes from `addr` lie inside [0, 65536): the bounds condition of R44 to R48. -/
def inBounds (addr : Int) (size : Nat) : Bool :=
  match addr with
  | .ofNat a => decide (a + size ≤ Config.memSize)
  | .negSucc _ => false

/-- `MemRead(addr, 1)` (R44). -/
def readByte (m : Memory) (addr : Int) : Except Fault Byte :=
  if inBounds addr 1 then .ok (Memory.peek m addr.toNat) else .error (.outOfBounds addr 1)

/-- `MemWrite(addr, 1, v)` (R45). -/
def writeByte (m : Memory) (addr : Int) (v : Byte) : Except Fault Memory :=
  if inBounds addr 1 then .ok (Memory.poke m addr.toNat v) else .error (.outOfBounds addr 1)

/-- `MemRead(addr, 2)` (R46): little-endian; a word at 0xFFFF is out of bounds, it does not wrap. -/
def readWord (m : Memory) (addr : Int) : Except Fault Word :=
  if inBounds addr 2 then .ok (wordOf (Memory.peek m (addr.toNat + 1)) (Memory.peek m addr.toNat))
  else .error (.outOfBounds addr 2)

/-- `MemWrite(addr, 2, v)` (R47): low byte at `addr`, high byte at `addr + 1`; the check precedes both (D25, assumption log 15). -/
def writeWord (m : Memory) (addr : Int) (v : Word) : Except Fault Memory :=
  if inBounds addr 2 then
    .ok (Memory.poke (Memory.poke m addr.toNat (lowByte v)) (addr.toNat + 1) (highByte v))
  else .error (.outOfBounds addr 2)

/-- `load(bytes, offset)` (R48); the check precedes the copy (D24, assumption log 15). -/
def load (m : Memory) (bytes : List Byte) (offset : Int) : Except Fault Memory :=
  if inBounds offset bytes.length then .ok (Memory.pokeAll m offset.toNat bytes)
  else .error (.outOfBounds offset bytes.length)

/-! ## Fatals, the program counter, immediates -/

/-- `raise` (R220): the latch takes the fatal; what the step has done so far stays done. The Machine "saves nothing, switches no mode,
masks nothing, pushes nothing on any stack and transfers control nowhere" (R225); there is no return from it (R227). -/
def State.raise (fault : Fault) (s : State) : State := { s with fatal := some fault }

/-- An advance of `pc`, wrapping at the top of the address space (R19, D3; assumption log 6). -/
def State.advancePc (k : Nat) (s : State) : State := { s with pc := s.pc + BitVec.ofNat 16 k }

/-- The two's complement value of a byte as a word (`sext_16` of R7; D8, assumption log 8). -/
def signExtend16 (v : Byte) : Word := v.signExtend 16

/-- `imm8()` (R76): the byte at `pc`, read through `readByte`, and the state with `pc` past it. -/
def imm8 (s : State) : Except Fault (Byte × State) :=
  match readByte s.mem s.pc.toNat with
  | .error fault => .error fault
  | .ok v => .ok (v, s.advancePc 1)

/-- `imm16()` (R77): the word at `pc`, read as one access through `readWord`, and the state with `pc` past it; `OutOfBounds(0xFFFF, 2)`
when `pc` = 0xFFFF (D4, assumption log 6). -/
def imm16 (s : State) : Except Fault (Word × State) :=
  match readWord s.mem s.pc.toNat with
  | .error fault => .error fault
  | .ok v => .ok (v, s.advancePc 2)

/-- `MemWrite(addr, 1, v)` issued by an effect, and what the effect does after it. -/
def storeByte (s : State) (addr : Word) (v : Byte) (next : State → Outcome) : Outcome :=
  match writeByte s.mem addr.toNat v with
  | .error fault => .next (s.raise fault)
  | .ok m => next { s with mem := m }

end Sys2Proof.Machine
end

