-- ==== Sys2Proof/Machine/Operands.lean ====
section
/-! DEFINITION. Operand forms: reading and writing the 8-bit registers, the pairs, and the operand `r` of `XOR` and `BIT`
(spec/10_state.md R10 to R13, spec/30_encoding.md R80). -/

namespace Sys2Proof.Machine

/-- What a write of `v` to F stores: "any flag-bit write/read must mask to the high nibble" (R13). -/
def maskF (v : Byte) : Byte := v &&& 0xF0#8

/-- `reg[X]` (R10). -/
def State.readReg (s : State) : Reg8 → Byte
  | .a => s.a
  | .b => s.b
  | .c => s.c
  | .d => s.d
  | .e => s.e
  | .f => s.f
  | .h => s.h
  | .l => s.l

/-- `reg[X] <- v` (R10, R13). -/
def State.writeReg (s : State) : Reg8 → Byte → State
  | .a, v => { s with a := v }
  | .b, v => { s with b := v }
  | .c, v => { s with c := v }
  | .d, v => { s with d := v }
  | .e, v => { s with e := v }
  | .f, v => { s with f := maskF v }
  | .h, v => { s with h := v }
  | .l, v => { s with l := v }

/-- The register of a pair's high half (R11). -/
def pairHigh : Pair → Reg8
  | .af => .a
  | .bc => .b
  | .de => .d
  | .hl => .h

/-- The register of a pair's low half (R11). -/
def pairLow : Pair → Reg8
  | .af => .f
  | .bc => .c
  | .de => .e
  | .hl => .l

/-- `pair[P]` (R11): the two halves concatenated. -/
def State.readPair (s : State) (p : Pair) : Word :=
  wordOf (s.readReg (pairHigh p)) (s.readReg (pairLow p))

/-- `pair[P] <- v` (R12): "high byte → first register, low byte → second". -/
def State.writePair (s : State) (p : Pair) (v : Word) : State :=
  (s.writeReg (pairHigh p) (highByte v)).writeReg (pairLow p) (lowByte v)

/-- The register an operand `r` names (R80). -/
def operandReg : Operand8 → Reg8
  | .b => .b
  | .c => .c
  | .d => .d
  | .e => .e
  | .h => .h
  | .l => .l
  | .a => .a

/-- The value of an operand `r`. -/
def State.readOperand (s : State) (r : Operand8) : Byte := s.readReg (operandReg r)

end Sys2Proof.Machine
end

