-- ==== Sys2Proof/Machine/Flags.lean ====
section
/-! DEFINITION. The flags (spec/10_state.md R14, R15; spec/00_scope.md R5) and the flag computations of `XOR r` and `BIT b, r`. -/

namespace Sys2Proof.Machine

/-- `FLAG_POS` (R5, D1; assumption log 3): the bit of F that holds each flag. -/
def flagPos : Flag → Nat
  | .z => 7
  | .n => 6
  | .h => 5
  | .c => 4

/-- The mask of a flag in F (R14). -/
def flagMask (fl : Flag) : Byte := 1#8 <<< flagPos fl

/-- `flag[x]` (R14): reads test only their own bit. -/
def State.readFlag (s : State) (fl : Flag) : Bool := s.f.getLsbD (flagPos fl)

/-- `flag[x] <- b` (R14): the other three flags are kept, the low nibble is zero. -/
def State.setFlag (s : State) (fl : Flag) (b : Bool) : State :=
  { s with f := (s.f &&& (0xF0#8 &&& ~~~flagMask fl)) ||| (if b then flagMask fl else 0#8) }

/-- The flags of `XOR r` (R140): Z iff the result is zero; N, H and C cleared. -/
def State.setXorFlags (s : State) (res : Byte) : State :=
  (((s.setFlag .z (res == 0#8)).setFlag .n false).setFlag .h false).setFlag .c false

/-- The flags of `BIT b, r` (R150): Z iff the tested bit is 0, N cleared, H set, C not written. -/
def State.setBitFlags (s : State) (tested : Bool) : State :=
  ((s.setFlag .z (!tested)).setFlag .n false).setFlag .h true

end Sys2Proof.Machine
end

