-- ==== Sys2Proof/Machine/BitTest.lean ====
section
/-! DEFINITION. `BIT b, r` (spec/44_bit_test.md R150 to R152): 56 encodings over one effect. -/

namespace Sys2Proof.Machine

/-- `BitEffect(b, r)` (R150): only the flags change. -/
def bitEffect (b : Fin 8) (r : Operand8) (s : State) : State :=
  s.setBitFlags ((s.readOperand r).getLsbD b.val)

/-- `BIT 0, B` (R150). -/
def execBit0B (s : State) : Outcome := .next (bitEffect 0 .b s)

/-- `BIT 0, C` (R150). -/
def execBit0C (s : State) : Outcome := .next (bitEffect 0 .c s)

/-- `BIT 0, D` (R150). -/
def execBit0D (s : State) : Outcome := .next (bitEffect 0 .d s)

/-- `BIT 0, E` (R150). -/
def execBit0E (s : State) : Outcome := .next (bitEffect 0 .e s)

/-- `BIT 0, H` (R150). -/
def execBit0H (s : State) : Outcome := .next (bitEffect 0 .h s)

/-- `BIT 0, L` (R150). -/
def execBit0L (s : State) : Outcome := .next (bitEffect 0 .l s)

/-- `BIT 0, A` (R150). -/
def execBit0A (s : State) : Outcome := .next (bitEffect 0 .a s)

/-- `BIT 1, B` (R150). -/
def execBit1B (s : State) : Outcome := .next (bitEffect 1 .b s)

/-- `BIT 1, C` (R150). -/
def execBit1C (s : State) : Outcome := .next (bitEffect 1 .c s)

/-- `BIT 1, D` (R150). -/
def execBit1D (s : State) : Outcome := .next (bitEffect 1 .d s)

/-- `BIT 1, E` (R150). -/
def execBit1E (s : State) : Outcome := .next (bitEffect 1 .e s)

/-- `BIT 1, H` (R150). -/
def execBit1H (s : State) : Outcome := .next (bitEffect 1 .h s)

/-- `BIT 1, L` (R150). -/
def execBit1L (s : State) : Outcome := .next (bitEffect 1 .l s)

/-- `BIT 1, A` (R150). -/
def execBit1A (s : State) : Outcome := .next (bitEffect 1 .a s)

/-- `BIT 2, B` (R150). -/
def execBit2B (s : State) : Outcome := .next (bitEffect 2 .b s)

/-- `BIT 2, C` (R150). -/
def execBit2C (s : State) : Outcome := .next (bitEffect 2 .c s)

/-- `BIT 2, D` (R150). -/
def execBit2D (s : State) : Outcome := .next (bitEffect 2 .d s)

/-- `BIT 2, E` (R150). -/
def execBit2E (s : State) : Outcome := .next (bitEffect 2 .e s)

/-- `BIT 2, H` (R150). -/
def execBit2H (s : State) : Outcome := .next (bitEffect 2 .h s)

/-- `BIT 2, L` (R150). -/
def execBit2L (s : State) : Outcome := .next (bitEffect 2 .l s)

/-- `BIT 2, A` (R150). -/
def execBit2A (s : State) : Outcome := .next (bitEffect 2 .a s)

/-- `BIT 3, B` (R150). -/
def execBit3B (s : State) : Outcome := .next (bitEffect 3 .b s)

/-- `BIT 3, C` (R150). -/
def execBit3C (s : State) : Outcome := .next (bitEffect 3 .c s)

/-- `BIT 3, D` (R150). -/
def execBit3D (s : State) : Outcome := .next (bitEffect 3 .d s)

/-- `BIT 3, E` (R150). -/
def execBit3E (s : State) : Outcome := .next (bitEffect 3 .e s)

/-- `BIT 3, H` (R150). -/
def execBit3H (s : State) : Outcome := .next (bitEffect 3 .h s)

/-- `BIT 3, L` (R150). -/
def execBit3L (s : State) : Outcome := .next (bitEffect 3 .l s)

/-- `BIT 3, A` (R150). -/
def execBit3A (s : State) : Outcome := .next (bitEffect 3 .a s)

/-- `BIT 4, B` (R150). -/
def execBit4B (s : State) : Outcome := .next (bitEffect 4 .b s)

/-- `BIT 4, C` (R150). -/
def execBit4C (s : State) : Outcome := .next (bitEffect 4 .c s)

/-- `BIT 4, D` (R150). -/
def execBit4D (s : State) : Outcome := .next (bitEffect 4 .d s)

/-- `BIT 4, E` (R150). -/
def execBit4E (s : State) : Outcome := .next (bitEffect 4 .e s)

/-- `BIT 4, H` (R150). -/
def execBit4H (s : State) : Outcome := .next (bitEffect 4 .h s)

/-- `BIT 4, L` (R150). -/
def execBit4L (s : State) : Outcome := .next (bitEffect 4 .l s)

/-- `BIT 4, A` (R150). -/
def execBit4A (s : State) : Outcome := .next (bitEffect 4 .a s)

/-- `BIT 5, B` (R150). -/
def execBit5B (s : State) : Outcome := .next (bitEffect 5 .b s)

/-- `BIT 5, C` (R150). -/
def execBit5C (s : State) : Outcome := .next (bitEffect 5 .c s)

/-- `BIT 5, D` (R150). -/
def execBit5D (s : State) : Outcome := .next (bitEffect 5 .d s)

/-- `BIT 5, E` (R150). -/
def execBit5E (s : State) : Outcome := .next (bitEffect 5 .e s)

/-- `BIT 5, H` (R150). -/
def execBit5H (s : State) : Outcome := .next (bitEffect 5 .h s)

/-- `BIT 5, L` (R150). -/
def execBit5L (s : State) : Outcome := .next (bitEffect 5 .l s)

/-- `BIT 5, A` (R150). -/
def execBit5A (s : State) : Outcome := .next (bitEffect 5 .a s)

/-- `BIT 6, B` (R150). -/
def execBit6B (s : State) : Outcome := .next (bitEffect 6 .b s)

/-- `BIT 6, C` (R150). -/
def execBit6C (s : State) : Outcome := .next (bitEffect 6 .c s)

/-- `BIT 6, D` (R150). -/
def execBit6D (s : State) : Outcome := .next (bitEffect 6 .d s)

/-- `BIT 6, E` (R150). -/
def execBit6E (s : State) : Outcome := .next (bitEffect 6 .e s)

/-- `BIT 6, H` (R150). -/
def execBit6H (s : State) : Outcome := .next (bitEffect 6 .h s)

/-- `BIT 6, L` (R150). -/
def execBit6L (s : State) : Outcome := .next (bitEffect 6 .l s)

/-- `BIT 6, A` (R150). -/
def execBit6A (s : State) : Outcome := .next (bitEffect 6 .a s)

/-- `BIT 7, B` (R150). -/
def execBit7B (s : State) : Outcome := .next (bitEffect 7 .b s)

/-- `BIT 7, C` (R150). -/
def execBit7C (s : State) : Outcome := .next (bitEffect 7 .c s)

/-- `BIT 7, D` (R150). -/
def execBit7D (s : State) : Outcome := .next (bitEffect 7 .d s)

/-- `BIT 7, E` (R150). -/
def execBit7E (s : State) : Outcome := .next (bitEffect 7 .e s)

/-- `BIT 7, H` (R150). -/
def execBit7H (s : State) : Outcome := .next (bitEffect 7 .h s)

/-- `BIT 7, L` (R150). -/
def execBit7L (s : State) : Outcome := .next (bitEffect 7 .l s)

/-- `BIT 7, A` (R150). -/
def execBit7A (s : State) : Outcome := .next (bitEffect 7 .a s)

end Sys2Proof.Machine
end

