-- ==== Sys2Proof/Machine/Control.lean ====
section
/-! DEFINITION. `JR NZ, r8`, `JP a16` (spec/45_control_transfer.md R160 to R162) and `NOP` (spec/46_nop.md R170). The immediate of a jump is read by
`execute` (Machine/Execute.lean; assumption log 7), so `pc` is past it here. -/

namespace Sys2Proof.Machine

/-- `JR NZ, r8` (R160): the displacement is added to the address after the displacement byte, when Z = 0. -/
def execJrNzR8 (r8 : Byte) (s : State) : Outcome :=
  .next (if s.readFlag .z then s else { s with pc := s.pc + signExtend16 r8 })

/-- `JP a16` (R161): "`pc <- imm16()` is therefore an equal way to write the effect". -/
def execJpA16 (a16 : Word) (s : State) : Outcome :=
  .next { s with pc := a16 }

/-- `NOP` (R170): "no state change". -/
def execNop (s : State) : Outcome := .next s

end Sys2Proof.Machine
end

