-- ==== Sys2Proof/Machine/LoadPair.lean ====
section
/-! DEFINITION. `LD <pair>, nn` (spec/41_load_pair_immediate.md R120 to R124): what follows `v <- imm16()`. The immediate, and the
fatal of its read, are `execute`'s (Machine/Execute.lean; assumption log 7). -/

namespace Sys2Proof.Machine

/-- `LD BC, nn` (R120). -/
def execLdBcNn (nn : Word) (s : State) : Outcome :=
  .next (s.writePair .bc nn)

/-- `LD DE, nn` (R121). -/
def execLdDeNn (nn : Word) (s : State) : Outcome :=
  .next (s.writePair .de nn)

/-- `LD HL, nn` (R122). -/
def execLdHlNn (nn : Word) (s : State) : Outcome :=
  .next (s.writePair .hl nn)

/-- `LD SP, nn` (R123): the value goes to SP whole. -/
def execLdSpNn (nn : Word) (s : State) : Outcome :=
  .next { s with sp := nn }

end Sys2Proof.Machine
end

