-- ==== Sys2Proof/Machine/StoreA.lean ====
section
/-! DEFINITION. `LD (BC), A`; `LD (DE), A`; `LD (HL+), A`; `LD (HL-), A` (spec/42_store_a_indirect.md R130 to R136). -/

namespace Sys2Proof.Machine

/-- `LEGACY_STORE_DEC_HL` (R4, R135): false for this hardware (spec/90_conflicts.md C1, D7; assumption log 9). -/
def legacyStoreDecHl : Bool := false

/-- HL incremented as one 16-bit value (R133, R19). -/
def State.incHl (s : State) : State := s.writePair .hl (s.readPair .hl + 1)

/-- HL decremented as one 16-bit value: `(a + 65535) mod 65536` (R134, R19). -/
def State.decHl (s : State) : State := s.writePair .hl (s.readPair .hl + 65535)

/-- A stored at the address in BC or DE (R131, R132); with the legacy switch on, HL is decremented afterwards (R135). -/
def storeAThroughPair (legacy : Bool) (p : Pair) (s : State) : Outcome :=
  storeByte s (s.readPair p) s.a fun s' => .next (if legacy then s'.decHl else s')

/-- `LD (BC), A` (R131). -/
def execLdIndBcA (s : State) : Outcome := storeAThroughPair legacyStoreDecHl .bc s

/-- `LD (DE), A` (R132). -/
def execLdIndDeA (s : State) : Outcome := storeAThroughPair legacyStoreDecHl .de s

/-- `LD (HL+), A` (R133): the store uses HL before the increment. -/
def execLdIndHlIncA (s : State) : Outcome :=
  storeByte s (s.readPair .hl) s.a fun s' => .next s'.incHl

/-- `LD (HL-), A` (R134): the store uses HL before the decrement. -/
def execLdIndHlDecA (s : State) : Outcome :=
  storeByte s (s.readPair .hl) s.a fun s' => .next s'.decHl

end Sys2Proof.Machine
end

