-- ==== Sys2Proof/Machine/Xor.lean ====
section
/-! DEFINITION. `XOR r` (spec/43_xor.md R140 to R147). -/

namespace Sys2Proof.Machine

/-- `XorEffect(r)` (R140): A := A xor r, the source read before A is written, then the flags. -/
def xorEffect (r : Operand8) (s : State) : State :=
  let res := s.a ^^^ s.readOperand r
  (s.writeReg .a res).setXorFlags res

/-- `XOR B` (R141). -/
def execXorB (s : State) : Outcome := .next (xorEffect .b s)

/-- `XOR C` (R142). -/
def execXorC (s : State) : Outcome := .next (xorEffect .c s)

/-- `XOR D` (R143). -/
def execXorD (s : State) : Outcome := .next (xorEffect .d s)

/-- `XOR E` (R144). -/
def execXorE (s : State) : Outcome := .next (xorEffect .e s)

/-- `XOR H` (R145). -/
def execXorH (s : State) : Outcome := .next (xorEffect .h s)

/-- `XOR L` (R146). -/
def execXorL (s : State) : Outcome := .next (xorEffect .l s)

/-- `XOR A` (R147). -/
def execXorA (s : State) : Outcome := .next (xorEffect .a s)

end Sys2Proof.Machine
end

