-- ==== Sys2Proof/Machine/Effect.lean ====
section
/-! DEFINITION. Written effects (spec/30_encoding.md R75, spec/48_host_operations.md R201): what one does to the register bank and the memory. It
reads and writes registers through their accessors, touches memory through the byte and word accessors of R43, `load`
being the host's (R48), and either finishes or raises `OutOfBounds`; the log, the table and the latch's value are out of its reach. -/

namespace Sys2Proof.Machine

/-- 1 for true, 0 for false. -/
def truth (p : Bool) : Int := if p then 1 else 0

/-- The value of an expression, over the values read or named so far, the latest first. The bitwise operations are those of natural
numbers, a negative operand counting as 0; a missing slot is 0. -/
def evalExpr (slots : List Int) (s : State) : EffectExpr → Int
  | .const k => k
  | .slot k => slots.getD k 0
  | .reg r => (s.readReg r).toNat
  | .pair p => (s.readPair p).toNat
  | .sp => s.sp.toNat
  | .pc => s.pc.toNat
  | .flag fl => truth (s.readFlag fl)
  | .add x y => evalExpr slots s x + evalExpr slots s y
  | .sub x y => evalExpr slots s x - evalExpr slots s y
  | .mul x y => evalExpr slots s x * evalExpr slots s y
  | .div x y => evalExpr slots s x / evalExpr slots s y
  | .mod x y => evalExpr slots s x % evalExpr slots s y
  | .and x y => ((evalExpr slots s x).toNat &&& (evalExpr slots s y).toNat : Nat)
  | .or x y => ((evalExpr slots s x).toNat ||| (evalExpr slots s y).toNat : Nat)
  | .xor x y => ((evalExpr slots s x).toNat ^^^ (evalExpr slots s y).toNat : Nat)
  | .lt x y => truth (decide (evalExpr slots s x < evalExpr slots s y))
  | .eq x y => truth (decide (evalExpr slots s x = evalExpr slots s y))

/-- A value read becomes the latest slot. -/
def bindResult (slots : List Int) (s : State) (result : Except Fault Int) : Except Fault (List Int × State) :=
  match result with
  | .error fault => .error fault
  | .ok v => .ok (v :: slots, s)

/-- A memory written. -/
def storeResult (slots : List Int) (s : State) (result : Except Fault Memory) : Except Fault (List Int × State) :=
  match result with
  | .error fault => .error fault
  | .ok m => .ok (slots, { s with mem := m })

/-- One operation: the slots and the state after it, or the `OutOfBounds` an accessor gave. A value is narrowed to the width it is
written with (R24). -/
def runOp (slots : List Int) (s : State) : EffectOp → Except Fault (List Int × State)
  | .bind e => .ok (evalExpr slots s e :: slots, s)
  | .imm8 =>
    match imm8 s with
    | .error fault => .error fault
    | .ok (v, s') => .ok ((v.toNat : Int) :: slots, s')
  | .imm16 =>
    match imm16 s with
    | .error fault => .error fault
    | .ok (v, s') => .ok ((v.toNat : Int) :: slots, s')
  | .readByte addr => bindResult slots s ((readByte s.mem (evalExpr slots s addr)).map fun v => (v.toNat : Int))
  | .readWord addr => bindResult slots s ((readWord s.mem (evalExpr slots s addr)).map fun v => (v.toNat : Int))
  | .writeByte addr v => storeResult slots s (writeByte s.mem (evalExpr slots s addr) (.ofInt 8 (evalExpr slots s v)))
  | .writeWord addr v => storeResult slots s (writeWord s.mem (evalExpr slots s addr) (.ofInt 16 (evalExpr slots s v)))
  | .setReg r v => .ok (slots, s.writeReg r (.ofInt 8 (evalExpr slots s v)))
  | .setPair p v => .ok (slots, s.writePair p (.ofInt 16 (evalExpr slots s v)))
  | .setSp v => .ok (slots, { s with sp := .ofInt 16 (evalExpr slots s v) })
  | .setPc v => .ok (slots, { s with pc := .ofInt 16 (evalExpr slots s v) })
  | .setFlag fl v => .ok (slots, s.setFlag fl (decide (evalExpr slots s v ≠ 0)))

/-- A written effect. Where an operation raises, the effect ends there and what it has done stays done (R105, R220). -/
def runEffect : Effect → List Int → State → State
  | .done, _, s => s
  | .andThen op next, slots, s =>
    match runOp slots s op with
    | .error fault => s.raise fault
    | .ok (slots', s') => runEffect next slots' s'
  | .branch cond yes no, slots, s =>
    if evalExpr slots s cond = 0 then runEffect no slots s else runEffect yes slots s

end Sys2Proof.Machine
end

