-- ==== Sys2Proof/Machine/Engine.lean ====
section
/-! DEFINITION. The engine's Fetch, ResolveBank and Lookup (spec/40_dispatch_engine.md R100 to R104), the reading of an
instruction's immediate, and the bytes at `pc`. -/

namespace Sys2Proof.Machine

/-- "read the byte at PC, advance PC by 1" (R101, R102), through `readByte` (R43). -/
def fetchByte (s : State) : Except Fault (Byte × State) := imm8 s

/-- `ResolveBank` (R102): the bank, the opcode byte and the state after the bytes read so far. Resolution has one level (R72). -/
def resolveBank (b0 : Byte) (s : State) : Except Fault (Bank × Byte × State) :=
  match prefixBank b0 with
  | none => .ok (.default, b0, s)
  | some bank =>
    match fetchByte s with
    | .error fault => .error fault
    | .ok (opcode, s') => .ok (bank, opcode, s')

/-- `Fetch`, `ResolveBank` and `Lookup` (R101 to R104): the table entry to execute, or the fatal raised, with the state at that
point, `pc` at the byte after the opcode byte (R105). -/
def lookupEntry (s : State) : Except (Fault × State) (TableRow × State) :=
  match fetchByte s with
  | .error fault => .error (fault, s)
  | .ok (b0, s1) =>
    match resolveBank b0 s1 with
    | .error fault => .error (fault, s1)
    | .ok (bank, opcode, s2) =>
      match lookup s2.table bank opcode with
      | none => .error (.unimplementedOpcode bank opcode, s2)
      | some row => .ok (row, s2)

/-- The immediate of an instruction, read at `pc` by `imm8()` or `imm16()`, the first thing the effects that have one do (R105): the
instruction with it and the state with `pc` past it, or the fatal of the read. -/
def readImmediate (i : Instr) (s : State) : Except Fault (Instr × State) :=
  match i.operandBytes with
  | 0 => .ok (i, s)
  | 1 =>
    match imm8 s with
    | .error fault => .error fault
    | .ok (v, s') => .ok (i.withOperand v 0, s')
  | _ =>
    match imm16 s with
    | .error fault => .error fault
    | .ok (v, s') => .ok (i.withOperand (lowByte v) (highByte v), s')

/-- What stands at an address, for the statements and for placing a word; the engine itself reads through the accessors. -/
def State.byteAt (s : State) (addr : Word) : Byte := Memory.peek s.mem addr.toNat

/-- The state with `pc` past the lead byte, where there is one, and the opcode byte: where an effect starts (R105). -/
def State.atEffect (s : State) : State := s.advancePc (headerBytes (s.byteAt s.pc))

/-- The bytes of the instruction stream at `pc`, four of them, the longest an instruction can be (R70), addresses wrapping (R19). -/
def State.window (s : State) : List Byte :=
  [s.byteAt s.pc, s.byteAt (s.pc + 1), s.byteAt (s.pc + 2), s.byteAt (s.pc + 3)]

/-- Bytes written from an address up, addresses wrapping at the top of memory. -/
def State.placeBytes (s : State) (addr : Word) : List Byte → State
  | [] => s
  | v :: vs => State.placeBytes { s with mem := Memory.poke s.mem addr.toNat v } (addr + 1) vs

end Sys2Proof.Machine
end

