-- ==== Sys2Proof/Machine/Execute.lean ====
section
/-! DEFINITION. `Execute` (spec/40_dispatch_engine.md R105): the effect of the table entry found. -/

namespace Sys2Proof.Machine

/-- `ins.effect()` (R105), from the state with `pc` at the byte after the opcode byte. An instruction of this version reads its
immediate first, whose fatal ends the step there, and then does what `exec` says (assumption log 7); a written effect runs as
it is written. -/
def execute (effect : RowEffect) (s : State) : Outcome :=
  match effect with
  | .instr i =>
    match readImmediate i s with
    | .error fault => .next (s.raise fault)
    | .ok (i', s') => exec i' s'
  | .written e => .next (runEffect e [] s)

end Sys2Proof.Machine
end

