-- ==== Sys2Proof/Machine/TraceLog.lean ====
section
/-! DEFINITION. The trace log (spec/47_trace_log.md R180 to R188): snapshots, recording with comparison, and the log as one text. -/

namespace Sys2Proof.Machine

/-- The characters of the hexadecimal digits, upper case (R182). -/
def hexDigits : List Char :=
  ['0', '1', '2', '3', '4', '5', '6', '7', '8', '9', 'A', 'B', 'C', 'D', 'E', 'F']

/-- The digit of a four-bit value (R182). -/
def hexDigit (v : BitVec 4) : Char := hexDigits.getD v.toNat '0'

/-- `hex4(v)` (R182): always four characters. -/
def hex4 (v : Word) : Text :=
  [hexDigit (v.extractLsb' 12 4), hexDigit (v.extractLsb' 8 4), hexDigit (v.extractLsb' 4 4), hexDigit (v.extractLsb' 0 4)]

/-- `Snapshot()` (R182): six fields in a fixed order, single spaces between them. -/
def snapshot (s : State) : Text :=
  ['A', 'F', '='] ++ hex4 (s.readPair .af) ++ [' ', 'B', 'C', '='] ++ hex4 (s.readPair .bc) ++
  [' ', 'D', 'E', '='] ++ hex4 (s.readPair .de) ++ [' ', 'H', 'L', '='] ++ hex4 (s.readPair .hl) ++
  [' ', 'S', 'P', '='] ++ hex4 s.sp ++ [' ', 'P', 'C', '='] ++ hex4 s.pc

/-- The expected entry that the next record meets: the one of its own ordinal, if there is one (R183, R184). -/
def State.expectedNext (s : State) : Option Text :=
  match s.expected with
  | none => none
  | some entries => entries[s.count]?

/-- `TraceRecord(snap)` (R183): append, count, compare, in that order; the index reported counts from 0 (D11, assumption log 13). -/
def traceRecord (snap : Text) (s : State) : State :=
  let recorded := { s with trace := s.trace ++ [snap], count := s.count + 1 }
  match s.expectedNext with
  | none => recorded
  | some entry => if snap = entry then recorded else recorded.raise (.traceMismatch s.count entry snap)

/-- `Record` of the step (R106): the snapshot of the state the instruction left. A step that has raised a fatal records nothing
(R105, R224). -/
def record (s : State) : State :=
  if s.fatal.isSome then s else traceRecord (snapshot s) s

/-- The line feed that ends each snapshot of a log written as one text (R187, D11). -/
def lineFeed : Char := '\n'

/-- The log as one running text: each snapshot followed by a line feed, the last included (R187). -/
def serialise : List Text → Text
  | [] => []
  | t :: ts => t ++ lineFeed :: serialise ts

/-- The entries of a text split at line feeds, `pending` being the characters of the entry under way. Characters after the last
line feed make a last entry (assumption log 18). -/
def splitEntries (pending : Text) : Text → List Text
  | [] => if pending = [] then [] else [pending]
  | ch :: rest =>
    if ch = lineFeed then pending :: splitEntries [] rest else splitEntries (pending ++ [ch]) rest

/-- "An expected sequence supplied as a text is split at line feeds into its entries, the terminators removed" (R187). -/
def parseExpected (text : Text) : List Text := splitEntries [] text

end Sys2Proof.Machine
end

