-- ==== Sys2Proof/Machine/Step.lean ====
section
/-! DEFINITION. The step (spec/40_dispatch_engine.md R107) and the placing of a table word where the step fetches. -/

namespace Sys2Proof.Machine

/-- The step's end: Record, once, after an Execute that raised no fatal (R106, R107). -/
def finish : Outcome → Outcome
  | .next s => .next (record s)
  | .fault r => .fault r
  | .refused r => .refused r

/-- `Step` (R107). A Machine with a fatal latched takes no step and is not changed (R109, R225, D9; assumption log 1 and 2). -/
def step (s : State) : Host.Outcome State Fault Refusal :=
  if s.fatal.isSome then .next s
  else
    match lookupEntry s with
    | .error (fault, s') => .next (s'.raise fault)
    | .ok (row, s') => finish (execute row.effect s')

/-- The state with a word of the opcode table stored at `pc`, so that the next step fetches and runs it: the bytes at `pc`, the
baseline table that decoding the word assumes, and no fatal latched (assumption log 10). -/
def State.withFetchWord (s : State) (nbits w : Nat) : State :=
  State.placeBytes { s with table := baselineTable, fatal := none } s.pc (tableBytes nbits w)

end Sys2Proof.Machine
end

