-- ==== Sys2Proof/Machine/Pseudocode.lean ====
section
/-! DEFINITION. The pseudocode of files 41_ to 46_ of spec/ written out as effects (spec/00_scope.md R8, spec/30_encoding.md R75), one for each
instruction. The step runs `exec`; a statement says that the two are one function. -/

namespace Sys2Proof

/-- `v <- imm16() ; pair[P] <- v` (R120 to R122). -/
def loadPairEffect (p : Pair) : Effect := .andThen .imm16 (.andThen (.setPair p (.slot 0)) .done)

/-- `v <- imm16() ; sp <- v` (R123). -/
def loadSpEffect : Effect := .andThen .imm16 (.andThen (.setSp (.slot 0)) .done)

/-- `MemWrite(pair[P], 1, reg[A])` (R131, R132). -/
def storeEffect (p : Pair) : Effect := .andThen (.writeByte (.pair p) (.reg .a)) .done

/-- `a <- pair[HL] ; MemWrite(a, 1, reg[A]) ; pair[HL] <- (a + k) mod 65536` (R133, R134). -/
def storeStepEffect (k : Int) : Effect :=
  .andThen (.bind (.pair .hl)) (.andThen (.writeByte (.slot 0) (.reg .a))
    (.andThen (.setPair .hl (.mod (.add (.slot 0) (.const k)) (.const 65536))) .done))

/-- `XorEffect(r)` (R140). -/
def xorEffectOf (r : Reg8) : Effect :=
  .andThen (.bind (.xor (.reg .a) (.reg r))) (.andThen (.setReg .a (.slot 0)) (.andThen (.setFlag .z (.eq (.slot 0) (.const 0)))
    (.andThen (.setFlag .n (.const 0)) (.andThen (.setFlag .h (.const 0)) (.andThen (.setFlag .c (.const 0)) .done)))))

/-- `BitEffect(b, r)` (R150); `reg[r][b]` is the quotient by 2^b modulo 2. -/
def bitEffectOf (b : Nat) (r : Reg8) : Effect :=
  .andThen (.bind (.mod (.div (.reg r) (.const (2 ^ b))) (.const 2))) (.andThen (.setFlag .z (.eq (.slot 0) (.const 0)))
    (.andThen (.setFlag .n (.const 0)) (.andThen (.setFlag .h (.const 1)) .done)))

/-- `d <- imm8() ; if flag[Z] = 0: pc <- (pc + sext_16(d)) mod 65536` (R160). -/
def jumpRelativeEffect : Effect :=
  .andThen .imm8 (.branch (.flag .z) .done
    (.andThen (.setPc (.sub (.add .pc (.slot 0)) (.mul (.const 256) (.lt (.const 127) (.slot 0))))) .done))

/-- `t <- MemRead(pc, 2) ; pc <- t` (R161). -/
def jumpEffect : Effect := .andThen (.readWord .pc) (.andThen (.setPc (.slot 0)) .done)

/-- The pseudocode of an instruction. -/
def Instr.pseudocode : Instr → Effect
  | .nop => .done
  | .ldBcNn _ => loadPairEffect .bc
  | .ldDeNn _ => loadPairEffect .de
  | .ldHlNn _ => loadPairEffect .hl
  | .ldSpNn _ => loadSpEffect
  | .ldIndBcA => storeEffect .bc
  | .ldIndDeA => storeEffect .de
  | .ldIndHlIncA => storeStepEffect 1
  | .ldIndHlDecA => storeStepEffect 65535
  | .jrNzR8 _ => jumpRelativeEffect
  | .jpA16 _ => jumpEffect
  | .xorB => xorEffectOf .b
  | .xorC => xorEffectOf .c
  | .xorD => xorEffectOf .d
  | .xorE => xorEffectOf .e
  | .xorH => xorEffectOf .h
  | .xorL => xorEffectOf .l
  | .xorA => xorEffectOf .a
  | .bit0B => bitEffectOf 0 .b
  | .bit0C => bitEffectOf 0 .c
  | .bit0D => bitEffectOf 0 .d
  | .bit0E => bitEffectOf 0 .e
  | .bit0H => bitEffectOf 0 .h
  | .bit0L => bitEffectOf 0 .l
  | .bit0A => bitEffectOf 0 .a
  | .bit1B => bitEffectOf 1 .b
  | .bit1C => bitEffectOf 1 .c
  | .bit1D => bitEffectOf 1 .d
  | .bit1E => bitEffectOf 1 .e
  | .bit1H => bitEffectOf 1 .h
  | .bit1L => bitEffectOf 1 .l
  | .bit1A => bitEffectOf 1 .a
  | .bit2B => bitEffectOf 2 .b
  | .bit2C => bitEffectOf 2 .c
  | .bit2D => bitEffectOf 2 .d
  | .bit2E => bitEffectOf 2 .e
  | .bit2H => bitEffectOf 2 .h
  | .bit2L => bitEffectOf 2 .l
  | .bit2A => bitEffectOf 2 .a
  | .bit3B => bitEffectOf 3 .b
  | .bit3C => bitEffectOf 3 .c
  | .bit3D => bitEffectOf 3 .d
  | .bit3E => bitEffectOf 3 .e
  | .bit3H => bitEffectOf 3 .h
  | .bit3L => bitEffectOf 3 .l
  | .bit3A => bitEffectOf 3 .a
  | .bit4B => bitEffectOf 4 .b
  | .bit4C => bitEffectOf 4 .c
  | .bit4D => bitEffectOf 4 .d
  | .bit4E => bitEffectOf 4 .e
  | .bit4H => bitEffectOf 4 .h
  | .bit4L => bitEffectOf 4 .l
  | .bit4A => bitEffectOf 4 .a
  | .bit5B => bitEffectOf 5 .b
  | .bit5C => bitEffectOf 5 .c
  | .bit5D => bitEffectOf 5 .d
  | .bit5E => bitEffectOf 5 .e
  | .bit5H => bitEffectOf 5 .h
  | .bit5L => bitEffectOf 5 .l
  | .bit5A => bitEffectOf 5 .a
  | .bit6B => bitEffectOf 6 .b
  | .bit6C => bitEffectOf 6 .c
  | .bit6D => bitEffectOf 6 .d
  | .bit6E => bitEffectOf 6 .e
  | .bit6H => bitEffectOf 6 .h
  | .bit6L => bitEffectOf 6 .l
  | .bit6A => bitEffectOf 6 .a
  | .bit7B => bitEffectOf 7 .b
  | .bit7C => bitEffectOf 7 .c
  | .bit7D => bitEffectOf 7 .d
  | .bit7E => bitEffectOf 7 .e
  | .bit7H => bitEffectOf 7 .h
  | .bit7L => bitEffectOf 7 .l
  | .bit7A => bitEffectOf 7 .a

end Sys2Proof
end

