-- ==== Sys2Proof/Machine/HostOps.lean ====
section
/-! DEFINITION. The host's operations on a Machine (spec/48_host_operations.md R200 to R211) and the launch state of a run
(R208, spec/70_reset_and_hazards.md R251 to R254). `Construct` is `State.construct`; `Step` is `step`. -/

namespace Sys2Proof.Machine

/-- A host operation on a Machine; a Machine with a fatal latched is not changed (R225, R227; assumption log 17). -/
def State.hostDo (s : State) (op : State → State) : State :=
  if s.fatal.isSome then s else op s

/-- `Register(bank, opcode, instruction)` (R201). -/
def State.hostRegister (s : State) (row : TableRow) : State :=
  s.hostDo fun s => { s with table := registerRow s.table row }

/-- What a memory operation of the host leaves: the new memory, or the bounds fatal latched (R202, D28). -/
def State.setMemory (s : State) : Except Fault Memory → State
  | .ok m => { s with mem := m }
  | .error fault => s.raise fault

/-- `Load(bytes, offset)` (R202). -/
def State.hostLoad (s : State) (bytes : List Byte) (offset : Int) : State :=
  s.hostDo fun s => s.setMemory (load s.mem bytes offset)

/-- `WriteByte(addr, v)` (R203). -/
def State.hostWriteByte (s : State) (addr : Int) (v : Byte) : State :=
  s.hostDo fun s => s.setMemory (writeByte s.mem addr v)

/-- `WriteWord(addr, v)` (R203). -/
def State.hostWriteWord (s : State) (addr : Int) (v : Word) : State :=
  s.hostDo fun s => s.setMemory (writeWord s.mem addr v)

/-- What a read of the host gives, with the Machine after it: a read out of bounds gives nothing and latches its fatal (R203, R220),
unless one is latched already. -/
def State.hostResult {α : Type} (s : State) : Except Fault α → Option α × State
  | .ok v => (some v, s)
  | .error fault => (none, s.hostDo (State.raise fault))

/-- `ReadByte(addr)` (R203). -/
def State.hostReadByte (s : State) (addr : Int) : Option Byte × State := s.hostResult (readByte s.mem addr)

/-- `ReadWord(addr)` (R203). -/
def State.hostReadWord (s : State) (addr : Int) : Option Word × State := s.hostResult (readWord s.mem addr)

/-- The state-preset operations (R204). -/
inductive Preset where
  | reg (r : Reg8) (v : Byte)
  | pair (p : Pair) (v : Word)
  | sp (v : Word)
  | pc (v : Word)
  | flag (fl : Flag) (b : Bool)
  deriving DecidableEq, Repr

/-- One setter of the register bank (R10 to R16, R204); none can fail. -/
def applyPreset (s : State) : Preset → State
  | .reg r v => s.writeReg r v
  | .pair p v => s.writePair p v
  | .sp v => { s with sp := v }
  | .pc v => { s with pc := v }
  | .flag fl b => s.setFlag fl b

/-- `Preset` (R204). -/
def State.hostPreset (s : State) (p : Preset) : State := s.hostDo fun s => applyPreset s p

/-- The presets that put a Machine into an entry state (R204, R252). -/
def presetsOf (e : Config.EntryState) : List Preset :=
  [.pair .af e.af, .pair .bc e.bc, .pair .de e.de, .pair .hl e.hl, .sp e.sp, .pc e.pc]

/-- `SupplyExpected(list)` (R205); the entries are not validated (D27). -/
def State.hostSupplyExpected (s : State) (entries : List Text) : State :=
  s.hostDo fun s => { s with expected := some entries }

/-- `TraceRecord(Snapshot())` by the host (R186). -/
def State.hostRecord (s : State) : State := s.hostDo fun s => traceRecord (snapshot s) s

/-- `Startup` (R206): "no state of the Machine changes except that `started` becomes true". -/
def State.hostStartup (s : State) : State := { s with started := true }

/-- What the host does before the first step (R208, R254): registrations, loads, presets, at most one expected sequence, optionally
the record of the entry state. `Startup` is always called. The host has no move on registers, memory or table after it
(D18, D20). -/
structure Launch where
  rows        : OpcodeTable
  loads       : List (List Byte × Int)
  presets     : List Preset
  expected    : Option (List Text)
  recordEntry : Bool
  deriving DecidableEq, Repr

/-- The launch with the baseline table's 74 registrations and nothing else (R254 "With none of them"). -/
def Launch.bare : Launch :=
  { rows := baselineTable, loads := [], presets := [], expected := none, recordEntry := false }

/-- The launch state (R208): `Construct`, then the host's operations in the order R208 lists them. -/
def launch (q : Launch) : State :=
  let registered := q.rows.foldl State.hostRegister State.construct
  let loaded := q.loads.foldl (fun s p => s.hostLoad p.1 p.2) registered
  let preset := q.presets.foldl State.hostPreset loaded
  let supplied := match q.expected with
    | none => preset
    | some entries => preset.hostSupplyExpected entries
  let recorded := if q.recordEntry then supplied.hostRecord else supplied
  recorded.hostStartup

end Sys2Proof.Machine
end

