-- ==== Sys2Proof/Safety.lean ====
section
/-! DEFINITION. What counts as a safe run, in the terms claims use. -/

namespace Sys2Proof.Machine

/-- No fatal is latched: the premise or the negated conclusion of every claim about a run (spec/60_exceptions.md R225). -/
def State.Running (s : State) : Prop := s.fatal = none

/-- What every state a Machine reaches satisfies: F's low nibble is zero (spec/10_state.md R13), the memory is in its canonical form
(spec/20_memory.md R40), `count` is the number of entries of the trace (spec/47_trace_log.md R180), and every entry has 47
characters (R182). -/
structure State.Inv (s : State) : Prop where
  fLow : s.f &&& 0x0F#8 = 0#8
  memWf : Memory.wf s.mem = true
  countTrace : s.count = s.trace.length
  entryLength : ∀ entry ∈ s.trace, entry.length = 47

/-- The state with the log, the run parameters and `started` of another: what an effect neither reads nor writes (spec/30_encoding.md R75). -/
def State.withOutside (s o : State) : State :=
  { s with trace := o.trace, count := o.count, started := o.started, table := o.table, expected := o.expected }

/-- Whether every entry of a table has the effect of one of the 74 instructions, as the baseline table's have. -/
def instructionsOnly (t : OpcodeTable) : Bool :=
  t.all fun row =>
    match row.effect with
    | .instr _ => true
    | .written _ => false

/-- A run of `k` steps (spec/40_dispatch_engine.md R110) that ends with no fatal latched. -/
def SafeRun (k : Nat) (s : State) : Prop :=
  ∃ t, Host.Core.run Sys2Proof.core k s = .next t ∧ t.Running

end Sys2Proof.Machine

namespace Sys2Proof.Claims

/-- The four stores (R130). -/
def storeForms : List Instr := [.ldIndBcA, .ldIndDeA, .ldIndHlIncA, .ldIndHlDecA]

/-- The seven `XOR r` (R141 to R147), each with its source register. -/
def xorForms : List (Instr × Reg8) :=
  [(.xorB, .b), (.xorC, .c), (.xorD, .d), (.xorE, .e), (.xorH, .h), (.xorL, .l), (.xorA, .a)]

/-- The 56 `BIT b, r` (R150, R82), each with its bit number and register. -/
def bitForms : List (Instr × Nat × Reg8) :=
  [(.bit0B, 0, .b), (.bit0C, 0, .c), (.bit0D, 0, .d), (.bit0E, 0, .e), (.bit0H, 0, .h), (.bit0L, 0, .l), (.bit0A, 0, .a)] ++
  [(.bit1B, 1, .b), (.bit1C, 1, .c), (.bit1D, 1, .d), (.bit1E, 1, .e), (.bit1H, 1, .h), (.bit1L, 1, .l), (.bit1A, 1, .a)] ++
  [(.bit2B, 2, .b), (.bit2C, 2, .c), (.bit2D, 2, .d), (.bit2E, 2, .e), (.bit2H, 2, .h), (.bit2L, 2, .l), (.bit2A, 2, .a)] ++
  [(.bit3B, 3, .b), (.bit3C, 3, .c), (.bit3D, 3, .d), (.bit3E, 3, .e), (.bit3H, 3, .h), (.bit3L, 3, .l), (.bit3A, 3, .a)] ++
  [(.bit4B, 4, .b), (.bit4C, 4, .c), (.bit4D, 4, .d), (.bit4E, 4, .e), (.bit4H, 4, .h), (.bit4L, 4, .l), (.bit4A, 4, .a)] ++
  [(.bit5B, 5, .b), (.bit5C, 5, .c), (.bit5D, 5, .d), (.bit5E, 5, .e), (.bit5H, 5, .h), (.bit5L, 5, .l), (.bit5A, 5, .a)] ++
  [(.bit6B, 6, .b), (.bit6C, 6, .c), (.bit6D, 6, .d), (.bit6E, 6, .e), (.bit6H, 6, .h), (.bit6L, 6, .l), (.bit6A, 6, .a)] ++
  [(.bit7B, 7, .b), (.bit7C, 7, .c), (.bit7D, 7, .d), (.bit7E, 7, .e), (.bit7H, 7, .h), (.bit7L, 7, .l), (.bit7A, 7, .a)]

end Sys2Proof.Claims
end

