-- ==== Sys2Proof/Certificates/Slice0/Obligations.lean ====
section
/-! DEFINITION. The statements for the provers. A docstring names the rule of spec/ a statement formalises, and the log entry
(notes/assumptions) where it rests on a decision of the spec or a choice of the model. -/

open Sys2Proof Sys2Proof.Machine

namespace Sys2Proof.Claims

/-- The four pairs with their high and low registers (R11). -/
def pairHalves : List (Pair × Reg8 × Reg8) := [(.af, .a, .f), (.bc, .b, .c), (.de, .d, .e), (.hl, .h, .l)]

/-- The four flags with their mask in F (R14; assumption log 3). -/
def flagMasks : List (Flag × Byte) := [(.z, 0x80), (.n, 0x40), (.h, 0x20), (.c, 0x10)]

/-- A four-digit upper-case hexadecimal number, written with division and remainder. -/
def hexOf (n : Nat) : Text :=
  let digit := fun k => "0123456789ABCDEF".toList.getD (k % 16) ' '
  [digit (n / 4096), digit (n / 256), digit (n / 16), digit n]

/-- A byte read as a signed number, as an amount added modulo 65536 (R7 `sext_16`; assumption log 8). -/
def displacement (d : Byte) : Nat := if d.toNat < 128 then d.toNat else d.toNat + 0xFF00

/-- The state with one more record (R183's first two lines). -/
def recorded (snap : Text) (s : State) : State := { s with trace := s.trace ++ [snap], count := s.count + 1 }

/-- How many bytes of the instruction stream a step is about: the whole instruction where the bytes at `pc` decode to one, else the lead
byte and the opcode byte. -/
def bytesRead (s : State) : Nat :=
  match decodeWith s.table s.window with
  | .ok (i, _) => headerBytes (s.byteAt s.pc) + i.operandBytes
  | .error _ => headerBytes (s.byteAt s.pc)

end Sys2Proof.Claims

open Sys2Proof.Claims

/-! ## Reset and the register bank -/

/-- R250: every register, pair and flag and every byte of memory is zero after reset; nothing recorded, no fatal, not started, no
expected sequence; `pc` is 0, the reset entry point. -/
def Obligations.ResetIsZeroThroughout : Prop :=
  (∀ r, State.reset.readReg r = 0) ∧ (∀ p, State.reset.readPair p = 0) ∧ (∀ fl, State.reset.readFlag fl = false) ∧
  State.reset.pc = 0 ∧ State.reset.sp = 0 ∧ (∀ addr, Memory.peek State.reset.mem addr = 0) ∧
  State.reset.trace = [] ∧ State.reset.count = 0 ∧ State.reset.fatal = none ∧ State.reset.started = false ∧
  State.reset.expected = none

/-- R11, R12: a pair is its two halves, at every moment; a pair write goes to the halves. AF keeps only the high nibble of F. -/
def Obligations.PairIsAViewOfTwoRegisters : Prop :=
  ∀ (s : State), ∀ q ∈ pairHalves,
    s.readPair q.1 = ((s.readReg q.2.1).setWidth 16 <<< 8) ||| (s.readReg q.2.2).setWidth 16 ∧
    (s.readPair q.1).toNat = (s.readReg q.2.1).toNat * 256 + (s.readReg q.2.2).toNat ∧
    ∀ v : Word,
      (s.writePair q.1 v).readReg q.2.1 = v.extractLsb' 8 8 ∧
      (q.1 ≠ .af → (s.writePair q.1 v).readReg q.2.2 = v.extractLsb' 0 8 ∧ (s.writePair q.1 v).readPair q.1 = v) ∧
      (q.1 = .af → (s.writePair q.1 v).readPair q.1 = v &&& 0xFFF0#16) ∧
      (∀ r, r ≠ q.2.1 → r ≠ q.2.2 → (s.writePair q.1 v).readReg r = s.readReg r) ∧
      (s.writePair q.1 v).pc = s.pc ∧ (s.writePair q.1 v).sp = s.sp ∧ (s.writePair q.1 v).mem = s.mem

/-- R13: whatever is written to F, by register, pair or flag, the low nibble reads zero; it is zero at reset and after every launch,
and every step keeps it so; pair AF and the AF field of a snapshot then end in a zero digit. -/
def Obligations.LowNibbleOfFReadsZero : Prop :=
  (∀ (s : State) (v : Byte), (s.writeReg .f v).readReg .f = v &&& 0xF0#8) ∧
  (∀ (s : State) (v : Word), (s.writePair .af v).readReg .f = v.extractLsb' 0 8 &&& 0xF0#8) ∧
  (∀ (s : State) (fl : Flag) (b : Bool), (s.setFlag fl b).readReg .f &&& 0x0F#8 = 0#8) ∧
  State.reset.readReg .f &&& 0x0F#8 = 0#8 ∧
  (∀ s t : State, s.readReg .f &&& 0x0F#8 = 0#8 → step s = .next t → t.readReg .f &&& 0x0F#8 = 0#8) ∧
  (∀ q : Launch, (launch q).readReg .f &&& 0x0F#8 = 0#8) ∧
  (∀ s : State, s.readReg .f &&& 0x0F#8 = 0#8 →
    s.readPair .af &&& 0x000F#16 = 0#16 ∧ (snapshot s)[6]? = some '0')

/-- R14, with the flag positions of R5, a decision of the spec (D1, assumption log 3): a flag is read at its own bit; a write of it
keeps the other three, clears the low nibble and changes nothing but F. -/
def Obligations.FlagAccessIsIndependent : Prop :=
  ∀ (s : State), ∀ q ∈ flagMasks, ∀ b : Bool,
    (s.readFlag q.1 = true ↔ s.f &&& q.2 ≠ 0#8) ∧
    s.setFlag q.1 b = { s with f := (s.f &&& (0xF0#8 ^^^ q.2)) ||| (if b then q.2 else 0#8) } ∧
    (s.setFlag q.1 b).readFlag q.1 = b ∧
    ∀ fl, fl ≠ q.1 → (s.setFlag q.1 b).readFlag fl = s.readFlag fl

/-! ## Memory -/

/-- R44, R45: a byte access fails exactly outside [0, 65536); a read gives the byte there and a write changes that byte only. -/
def Obligations.ByteAccessFailsOnlyOutOfBounds : Prop :=
  ∀ (m : Memory) (addr : Int) (v : Byte),
    ((addr < 0 ∨ 65536 ≤ addr) →
      readByte m addr = .error (.outOfBounds addr 1) ∧ writeByte m addr v = .error (.outOfBounds addr 1)) ∧
    (0 ≤ addr → addr < 65536 →
      readByte m addr = .ok (Memory.peek m addr.toNat) ∧
      (Memory.wf m = true → ∃ m', writeByte m addr v = .ok m' ∧
        ∀ x, Memory.peek m' x = if x = addr.toNat then v else Memory.peek m x))

/-- R41: every address is valid; a read returns the byte most recently written there, 0x00 if none was; a write changes that byte and
nothing else. -/
def Obligations.ReadReturnsTheByteLastWritten : Prop :=
  (∀ addr : Int, 0 ≤ addr → addr < 65536 → readByte State.reset.mem addr = .ok 0) ∧
  (∀ (m m' : Memory) (addr addr' : Int) (v : Byte), Memory.wf m = true → writeByte m addr v = .ok m' →
    readByte m' addr' = if addr' = addr then .ok v else readByte m addr') ∧
  (∀ (m : Memory) (addr : Int) (v : Byte), 0 ≤ addr → addr < 65536 →
    (∃ b, readByte m addr = .ok b) ∧ ∃ m', writeByte m addr v = .ok m')

/-- R46: a word read is little-endian at any address, fails exactly where `addr + 1` is out of bounds, and does not wrap; with the
rule's example. -/
def Obligations.ReadWordIsLittleEndian : Prop :=
  (∀ (m : Memory) (addr : Int), (addr < 0 ∨ 65536 ≤ addr + 1) → readWord m addr = .error (.outOfBounds addr 2)) ∧
  (∀ (m : Memory) (addr : Int), 0 ≤ addr → addr + 1 < 65536 →
    ∃ v : Word, readWord m addr = .ok v ∧
      v.extractLsb' 0 8 = Memory.peek m addr.toNat ∧ v.extractLsb' 8 8 = Memory.peek m (addr.toNat + 1)) ∧
  (∀ m : Memory, Memory.wf m = true → ∃ m', load m [0x01, 0x02, 0x03] 10 = .ok m' ∧
    readWord m' 10 = .ok 0x0201 ∧ readByte m' 12 = .ok 0x03)

/-- R47, R49: a word write puts the low byte at the address and the high byte after it; out of bounds nothing is written (D25,
assumption log 15). -/
def Obligations.WriteWordIsLittleEndian : Prop :=
  ∀ (m : Memory) (addr : Int) (v : Word), Memory.wf m = true →
    ((addr < 0 ∨ 65536 ≤ addr + 1) → writeWord m addr v = .error (.outOfBounds addr 2)) ∧
    (0 ≤ addr → addr + 1 < 65536 → ∃ m', writeWord m addr v = .ok m' ∧ readWord m' addr = .ok v ∧
      ∀ x, Memory.peek m' x =
        if x = addr.toNat then v.extractLsb' 0 8
        else if x = addr.toNat + 1 then v.extractLsb' 8 8 else Memory.peek m x)

/-- R48: `load` copies the bytes and touches nothing else, or fails as a whole (D24, assumption log 15). -/
def Obligations.LoadCopiesAllOrFails : Prop :=
  ∀ (m : Memory) (bytes : List Byte) (offset : Int), Memory.wf m = true →
    ((offset < 0 ∨ 65536 < offset + bytes.length) → load m bytes offset = .error (.outOfBounds offset bytes.length)) ∧
    (0 ≤ offset → offset + bytes.length ≤ 65536 → ∃ m', load m bytes offset = .ok m' ∧
      ∀ x : Nat, Memory.peek m' x =
        if offset.toNat ≤ x ∧ x < offset.toNat + bytes.length then bytes.getD (x - offset.toNat) 0
        else Memory.peek m x)

/-- The model's own form of the 65536 bytes of R40 (addresses rising, none listed that holds 0x00): every accessor keeps it. -/
def Obligations.AccessorsKeepTheCanonicalForm : Prop :=
  ∀ (m m' : Memory), Memory.wf m = true →
    (∀ addr v, writeByte m addr v = .ok m' → Memory.wf m' = true) ∧
    (∀ addr v, writeWord m addr v = .ok m' → Memory.wf m' = true) ∧
    (∀ bytes offset, load m bytes offset = .ok m' → Memory.wf m' = true)

/-- Two canonical memories with the same byte at every address are the same data, so equality of memories is equality of the
65536 bytes (R40). -/
def Obligations.EqualBytesAreEqualMemories : Prop :=
  ∀ m m' : Memory, Memory.wf m = true → Memory.wf m' = true → (∀ x, Memory.peek m x = Memory.peek m' x) → m = m'

/-! ## Encoding; the opcode bytes are the spec's decisions D2, D5, D6 (assumption log 4, 5) -/

/-- R71, R81, R82: decoding the bytes of any instruction, whatever follows them, gives it back with its immediate whole (bytes:
D2, D5, D6, PRESUMED; assumption log 4, 5). -/
def Obligations.DecodeOfEncodeIsTheInstruction : Prop :=
  ∀ (i : Instr) (rest : List Byte), i.wellFormed = true → decode (encode i ++ rest) = .ok (i, rest)

/-- R73, R87: the decoder gives an instruction for that instruction's bytes only (D2, D5, D6, PRESUMED; assumption log 4, 5). -/
def Obligations.DecodedBytesAreTheEncoding : Prop :=
  ∀ (bytes : List Byte) (i : Instr) (rest : List Byte), decode bytes = .ok (i, rest) → bytes = encode i ++ rest

/-- R221, R83, R84: 234 first bytes, 200 second bytes after 0xCB and every second byte after 0xDD, 0xED, 0xFD are unassigned; a second
lead byte is an opcode (R72). The counts are those of decisions D2, D5, D6 (PRESUMED, assumption log 4, 5). -/
def Obligations.UnassignedEncodingsAreCounted : Prop :=
  ((List.range 256).filter fun k =>
    decide (decode [BitVec.ofNat 8 k, 0, 0] = .error (.unassigned .default (BitVec.ofNat 8 k)))).length = 234 ∧
  ((List.range 256).filter fun k =>
    decide (decode [0xCB, BitVec.ofNat 8 k] = .error (.unassigned .cb (BitVec.ofNat 8 k)))).length = 200 ∧
  (∀ (opcode : Byte) (rest : List Byte),
    decode (0xDD :: opcode :: rest) = .error (.unassigned .dd opcode) ∧
    decode (0xED :: opcode :: rest) = .error (.unassigned .ed opcode) ∧
    decode (0xFD :: opcode :: rest) = .error (.unassigned .fd opcode)) ∧
  decode [0xCB, 0xCB] = .error (.unassigned .cb 0xCB)

/-- R81, R82: words written out from the opcode map (D2, D5, PRESUMED; assumption log 4, 5). -/
def Obligations.WordsOfTheOpcodeMapDecode : Prop :=
  decode [0x00] = .ok (.nop, []) ∧ decode [0x01, 0x13, 0x00] = .ok (.ldBcNn 0x0013, []) ∧
  decode [0x31, 0xFE, 0xFF] = .ok (.ldSpNn 0xFFFE, []) ∧ decode [0x12] = .ok (.ldIndDeA, []) ∧
  decode [0x32] = .ok (.ldIndHlDecA, []) ∧ decode [0xAC] = .ok (.xorH, []) ∧
  decode [0xCB, 0x7C] = .ok (.bit7H, []) ∧ decode [0x20, 0xFB] = .ok (.jrNzR8 0xFB, []) ∧
  decode [0xC3, 0x50, 0x01] = .ok (.jpA16 0x0150, [])

/-- R74, R201: `register` replaces the entry of its key and no other. -/
def Obligations.RegisterReplacesOneEntry : Prop :=
  ∀ (t : OpcodeTable) (row : TableRow) (bank : Bank) (opcode : Byte),
    lookup (registerRow t row) bank opcode =
      if row.bank = bank ∧ row.opcode = opcode then some row else lookup t bank opcode

/-- R201: populating an empty table with the 74 entries in any order gives the baseline table's mapping. -/
def Obligations.OrderOfRegistrationsDoesNotMatter : Prop :=
  ∀ rows : OpcodeTable, rows.Perm baselineTable → ∀ (bank : Bank) (opcode : Byte),
    lookup (rows.foldl registerRow []) bank opcode = lookup baselineTable bank opcode

/-! ## Instructions: the whole next state, so that what is not named is unchanged. `exec` starts with `pc` past the immediate, `execute`
with `pc` at the byte after the opcode byte (R105; assumption log 7). -/

/-- R120 to R124: the immediate, the two bytes at `pc` read as one little-endian word, goes to the pair or to SP and `pc` moves past it; F,
memory and every other register are unchanged; an immediate standing in the table entry does not matter. The condition on `pc` is
decision D4 (assumption log 6). -/
def Obligations.LoadPairImmediateResult : Prop :=
  ∀ (nn v : Word) (s : State),
    (exec (.ldBcNn nn) s = .next { s with b := nn.extractLsb' 8 8, c := nn.extractLsb' 0 8 } ∧
      exec (.ldDeNn nn) s = .next { s with d := nn.extractLsb' 8 8, e := nn.extractLsb' 0 8 } ∧
      exec (.ldHlNn nn) s = .next { s with h := nn.extractLsb' 8 8, l := nn.extractLsb' 0 8 } ∧
      exec (.ldSpNn nn) s = .next { s with sp := nn }) ∧
    (s.pc ≠ 0xFFFF →
      execute (.instr (.ldBcNn v)) s = .next { s with b := s.byteAt (s.pc + 1), c := s.byteAt s.pc, pc := s.pc + 2 } ∧
      execute (.instr (.ldDeNn v)) s = .next { s with d := s.byteAt (s.pc + 1), e := s.byteAt s.pc, pc := s.pc + 2 } ∧
      execute (.instr (.ldHlNn v)) s = .next { s with h := s.byteAt (s.pc + 1), l := s.byteAt s.pc, pc := s.pc + 2 } ∧
      execute (.instr (.ldSpNn v)) s = .next { s with sp := s.byteAt (s.pc + 1) ++ s.byteAt s.pc, pc := s.pc + 2 })

/-- R77, R222, R226: an immediate of two bytes at 0xFFFF raises `OutOfBounds(0xFFFF, 2)` and nothing else changes (D4, D9;
assumption log 2, 6). -/
def Obligations.ImmediateAtTheTopIsOutOfBounds : Prop :=
  ∀ (v : Word) (s : State), s.pc = 0xFFFF →
    ∀ i ∈ [Instr.ldBcNn v, .ldDeNn v, .ldHlNn v, .ldSpNn v, .jpA16 v],
      execute (.instr i) s = .next { s with fatal := some (.outOfBounds 0xFFFF 2) }

/-- R131 to R134, R136: one byte, A, is stored at the address in the pair before the instruction; every other byte reads as before;
only the HL forms change a register, HL by one, modulo 65536 (D3, D7; assumption log 6, 9). -/
def Obligations.StoreAThroughPairResult : Prop :=
  ∀ s : State, Memory.wf s.mem = true →
    (∃ m, exec .ldIndBcA s = .next { s with mem := m } ∧
      ∀ x, Memory.peek m x = if x = (s.readPair .bc).toNat then s.a else Memory.peek s.mem x) ∧
    (∃ m, exec .ldIndDeA s = .next { s with mem := m } ∧
      ∀ x, Memory.peek m x = if x = (s.readPair .de).toNat then s.a else Memory.peek s.mem x) ∧
    (∃ m, exec .ldIndHlIncA s = .next { s with
          mem := m, h := (s.readPair .hl + 1).extractLsb' 8 8, l := (s.readPair .hl + 1).extractLsb' 0 8 } ∧
      ∀ x, Memory.peek m x = if x = (s.readPair .hl).toNat then s.a else Memory.peek s.mem x) ∧
    (∃ m, exec .ldIndHlDecA s = .next { s with
          mem := m, h := (s.readPair .hl + 65535).extractLsb' 8 8, l := (s.readPair .hl + 65535).extractLsb' 0 8 } ∧
      ∀ x, Memory.peek m x = if x = (s.readPair .hl).toNat then s.a else Memory.peek s.mem x)

/-- R135: the legacy variant, not this hardware: with the switch on, the BC and DE stores also decrement HL. -/
def Obligations.LegacyStoreDecrementsHl : Prop :=
  ∀ s : State, Memory.wf s.mem = true → ∀ p ∈ [Pair.bc, Pair.de],
    ∃ m, storeAThroughPair true p s = .next { s with
          mem := m, h := (s.readPair .hl + 65535).extractLsb' 8 8, l := (s.readPair .hl + 65535).extractLsb' 0 8 } ∧
      ∀ x, Memory.peek m x = if x = (s.readPair p).toNat then s.a else Memory.peek s.mem x

/-- R140 to R147: A becomes A xor r; F is 0x80 when the result is zero and 0x00 otherwise (positions of R5, D1, assumption log 3);
nothing else changes, memory and the source register included. -/
def Obligations.XorResult : Prop :=
  ∀ s : State,
    exec .xorB s = .next { s with a := s.a ^^^ s.b, f := if s.a = s.b then 0x80 else 0x00 } ∧
    exec .xorC s = .next { s with a := s.a ^^^ s.c, f := if s.a = s.c then 0x80 else 0x00 } ∧
    exec .xorD s = .next { s with a := s.a ^^^ s.d, f := if s.a = s.d then 0x80 else 0x00 } ∧
    exec .xorE s = .next { s with a := s.a ^^^ s.e, f := if s.a = s.e then 0x80 else 0x00 } ∧
    exec .xorH s = .next { s with a := s.a ^^^ s.h, f := if s.a = s.h then 0x80 else 0x00 } ∧
    exec .xorL s = .next { s with a := s.a ^^^ s.l, f := if s.a = s.l then 0x80 else 0x00 } ∧
    exec .xorA s = .next { s with a := 0x00, f := 0x80 }

/-- R150: for each of the 56 forms, Z is the complement of the tested bit, N is 0, H is 1, C is kept, as bits of F (positions of R5,
D1, assumption log 3); nothing else changes, the tested register and memory included. -/
def Obligations.BitResult : Prop :=
  ∀ q ∈ bitForms, ∀ s : State,
    exec q.1 s = .next { s with
      f := (if (s.readReg q.2.2).getLsbD q.2.1 then 0x00#8 else 0x80#8) ||| 0x20#8 ||| (s.f &&& 0x10#8) }

/-- R151: Z iff the tested bit is 0, N clear, H set, and Carry "unchanged from its prior value", for every form, register value and
prior Carry; every register but F is unchanged. -/
def Obligations.BitSetsZeroIffTheBitIsClear : Prop :=
  ∀ q ∈ bitForms, ∀ s : State, ∃ t, exec q.1 s = .next t ∧
    (t.readFlag .z = true ↔ (s.readReg q.2.2).getLsbD q.2.1 = false) ∧ t.readFlag .n = false ∧
    t.readFlag .h = true ∧ t.readFlag .c = s.readFlag .c ∧ (∀ r, r ≠ .f → t.readReg r = s.readReg r)

/-- R160: the displacement byte is passed in any case; with Z = 0 the displacement is added to the address after it, modulo 65536;
nothing else changes (two's complement is decision D8, the wrap D3; assumption log 6, 8). -/
def Obligations.JumpRelativeResult : Prop :=
  ∀ (r8 v : Byte) (s : State),
    (s.readFlag .z = true →
      exec (.jrNzR8 r8) s = .next s ∧ execute (.instr (.jrNzR8 v)) s = .next { s with pc := s.pc + 1 }) ∧
    (s.readFlag .z = false →
      exec (.jrNzR8 r8) s = .next { s with pc := BitVec.ofNat 16 (s.pc.toNat + displacement r8) } ∧
      execute (.instr (.jrNzR8 v)) s =
        .next { s with pc := BitVec.ofNat 16 (s.pc.toNat + 1 + displacement (s.byteAt s.pc)) })

/-- R161: `pc` becomes exactly the immediate, the word at `pc`; nothing else changes (the condition on `pc` is decision D4,
assumption log 6). -/
def Obligations.JumpAbsoluteResult : Prop :=
  ∀ (a16 v : Word) (s : State),
    exec (.jpA16 a16) s = .next { s with pc := a16 } ∧
    (s.pc ≠ 0xFFFF → execute (.instr (.jpA16 v)) s = .next { s with pc := s.byteAt (s.pc + 1) ++ s.byteAt s.pc })

/-- R22: no instruction's effect, its immediate reads included, writes a register, `pc` or memory that the rule's table does not give it.
That the BC and DE stores leave H and L is decision D7 (assumption log 9). Which byte of memory a store writes is in
`StoreAThroughPairResult`. -/
def Obligations.RegistersAreWrittenOnlyByTheirInstructions : Prop :=
  ∀ (i : Instr) (s t : State), execute (.instr i) s = .next t →
    (t.a ≠ s.a → i ∈ xorForms.map Prod.fst) ∧
    (t.f ≠ s.f → i ∈ xorForms.map Prod.fst ++ bitForms.map Prod.fst) ∧
    ((t.b ≠ s.b ∨ t.c ≠ s.c) → ∃ nn, i = .ldBcNn nn) ∧
    ((t.d ≠ s.d ∨ t.e ≠ s.e) → ∃ nn, i = .ldDeNn nn) ∧
    ((t.h ≠ s.h ∨ t.l ≠ s.l) → (∃ nn, i = .ldHlNn nn) ∨ i = .ldIndHlIncA ∨ i = .ldIndHlDecA) ∧
    (t.sp ≠ s.sp → ∃ nn, i = .ldSpNn nn) ∧
    (t.pc ≠ s.pc →
      (∃ nn, i ∈ [Instr.ldBcNn nn, .ldDeNn nn, .ldHlNn nn, .ldSpNn nn, .jpA16 nn]) ∨ ∃ r8, i = .jrNzR8 r8) ∧
    (t.mem ≠ s.mem → i ∈ storeForms) ∧
    t.trace = s.trace ∧ t.count = s.count ∧ t.started = s.started ∧ t.table = s.table ∧ t.expected = s.expected

/-! ## The step -/

/-- R107, R105: with no fatal latched and bytes at `pc` that decode to an instruction, the step moves `pc` past the lead byte and the
opcode byte; where its two-byte immediate cannot be read it ends in `OutOfBounds(0xFFFF, 2)` (D4, D9; assumption log 2, 6);
else it executes the instruction with `pc` past the immediate (assumption log 7) and records. -/
def Obligations.StepRunsTheDecodedInstruction : Prop :=
  ∀ (s : State) (i : Instr) (rest : List Byte), s.Running → decodeWith s.table s.window = .ok (i, rest) →
    let u := s.advancePc (headerBytes (s.byteAt s.pc))
    ((i.operandBytes = 2 ∧ u.pc = 0xFFFF) → step s = .next { u with fatal := some (.outOfBounds 0xFFFF 2) }) ∧
    (¬(i.operandBytes = 2 ∧ u.pc = 0xFFFF) →
      ∃ t, exec i (u.advancePc i.operandBytes) = .next t ∧ step s = .next (traceRecord (snapshot t) t))

/-- R76, R77, R71: the immediate of the instruction that the bytes at `pc` decode to is the word, or the byte, that the memory accessor
reads after the opcode byte; a word at 0xFFFF is shut out, its read fails (D4, assumption log 6). -/
def Obligations.DecodedImmediateIsWhatTheAccessorReads : Prop :=
  ∀ (s : State) (i : Instr) (rest : List Byte), decodeWith s.table s.window = .ok (i, rest) →
    let u := s.advancePc (headerBytes (s.byteAt s.pc))
    (∀ nn, i ∈ [Instr.ldBcNn nn, .ldDeNn nn, .ldHlNn nn, .ldSpNn nn, .jpA16 nn] → u.pc ≠ 0xFFFF →
      readWord s.mem u.pc.toNat = .ok nn) ∧
    (∀ r8, i = .jrNzR8 r8 → readByte s.mem u.pc.toNat = .ok r8)

/-- R104, R226: an unassigned (bank, opcode) latches `UnimplementedOpcode`, with `pc` past the bytes fetched and nothing else changed
(D9, assumption log 2). -/
def Obligations.UnassignedOpcodeIsFatal : Prop :=
  ∀ (s : State) (bank : Bank) (opcode : Byte), s.Running →
    decodeWith s.table s.window = .error (.unassigned bank opcode) →
    step s = .next { s with
      pc := s.pc + BitVec.ofNat 16 (headerBytes (s.byteAt s.pc)), fatal := some (.unimplementedOpcode bank opcode) }

/-- R109, R225: a Machine with a fatal latched is not changed by a step (D9, assumption log 1). -/
def Obligations.LatchedMachineTakesNoStep : Prop :=
  ∀ (s : State) (fault : Fault), s.fatal = some fault → step s = .next s

/-- R107, R109: the step is total: from every state, with any table, memory and latch, it answers a next state; it never stops the
model. That a fatal is a next state, and that a latched Machine answers itself, is the model's shape of outcome on decision D9
(assumption log 1). -/
def Obligations.StepAlwaysAnswersANextState : Prop := ∀ s : State, ∃ t, step s = .next t

/-- R106, R111, R224: a step from a Machine with no fatal either records one snapshot, of the state it leaves, and raises at most
`TraceMismatch`, with the count before it as index (D11, assumption log 13); or records nothing and raises one of the other two,
what the fatal leaves being decision D9 (assumption log 2): an unassigned opcode changes nothing but `pc`; so does `OutOfBounds`
where the table holds the instructions of this version only, and it is `OutOfBounds(0xFFFF, 2)` (D4, assumption log 6); a
written effect may have changed registers and memory before it (R105). -/
def Obligations.StepRecordsOnceOrIsFatalBefore : Prop :=
  ∀ s t : State, s.Running → step s = .next t →
    (t.trace = s.trace ++ [snapshot t] ∧ t.count = s.count + 1 ∧
      (t.fatal = none ∨ ∃ entry, t.fatal = some (.traceMismatch s.count entry (snapshot t)))) ∨
    ((∃ bank opcode, t.fatal = some (.unimplementedOpcode bank opcode)) ∧ t = { s with pc := t.pc, fatal := t.fatal }) ∨
    ((∃ addr size, t.fatal = some (.outOfBounds addr size)) ∧ t.trace = s.trace ∧ t.count = s.count ∧
      (instructionsOnly s.table = true →
        t = { s with pc := t.pc, fatal := t.fatal } ∧ t.fatal = some (.outOfBounds 0xFFFF 2)))

/-- R222, R77: under the baseline table a step raises `OutOfBounds` exactly where an opcode byte with a 16-bit immediate stands at 0xFFFE,
and then it is `OutOfBounds(0xFFFF, 2)` (D4, assumption log 6) with `pc` = 0xFFFF (R226, D9, assumption log 2). The five opcode
bytes are those of R81, decision D5 (PRESUMED, assumption log 5). -/
def Obligations.OutOfBoundsOnlyAtTheTopOfMemory : Prop :=
  ∀ s t : State, s.Running → s.table = baselineTable → step s = .next t →
    ((∃ addr size, t.fatal = some (.outOfBounds addr size)) ↔
      s.pc = 0xFFFE ∧ s.byteAt 0xFFFE ∈ [0x01#8, 0x11#8, 0x21#8, 0x31#8, 0xC3#8]) ∧
    (∀ addr size, t.fatal = some (.outOfBounds addr size) → addr = 0xFFFF ∧ size = 2 ∧ t.pc = 0xFFFF)

/-- R18: `pc` after a completed step, by instruction, modulo 65536 (D3, D8; assumption log 6, 8). -/
def Obligations.PcAfterACompletedStep : Prop :=
  ∀ (s t : State) (i : Instr) (rest : List Byte), s.Running → s.table = baselineTable →
    decodeWith s.table s.window = .ok (i, rest) → step s = .next t → t.fatal = none →
    (∀ a16, i = .jpA16 a16 → t.pc = a16) ∧
    (∀ r8, i = .jrNzR8 r8 → t.pc =
      if s.readFlag .z then s.pc + 2 else BitVec.ofNat 16 (s.pc.toNat + 2 + displacement r8)) ∧
    ((∀ a16, i ≠ .jpA16 a16) → (∀ r8, i ≠ .jrNzR8 r8) → t.pc = s.pc + BitVec.ofNat 16 i.length)

/-- R42, R43: where the table holds the instructions of this version, a step changes memory only where the bytes at `pc` decode to one of
the four stores, and then only at the address in its pair. -/
def Obligations.OnlyStoresChangeMemory : Prop :=
  ∀ s t : State, Memory.wf s.mem = true → instructionsOnly s.table = true → step s = .next t →
    ∀ x : Nat, Memory.peek t.mem x ≠ Memory.peek s.mem x →
      ∃ i rest, decodeWith s.table s.window = .ok (i, rest) ∧ i ∈ storeForms ∧
        x = (s.readPair (if i = .ldIndBcA then .bc else if i = .ldIndDeA then .de else .hl)).toNat

/-- R26, R201: the opcode table and the expected sequence are constant during a run, and `started` is the host's (D20,
assumption log 11). -/
def Obligations.RunParametersAreConstant : Prop :=
  ∀ s t : State, step s = .next t → t.table = s.table ∧ t.expected = s.expected ∧ t.started = s.started

/-- R188: where the table holds the instructions of this version, what a step does to registers, log and latch depends on memory only
through the bytes of the instruction at `pc`: with another memory that has the same bytes there, as many as the instruction has
(the lead byte and the opcode byte where it is unassigned), the step differs in memory alone. -/
def Obligations.StepSeesOnlyItsOwnInstructionBytes : Prop :=
  ∀ (s t : State) (m : Memory), instructionsOnly s.table = true →
    (∀ k, k < bytesRead s →
      ({ s with mem := m } : State).byteAt (s.pc + BitVec.ofNat 16 k) = s.byteAt (s.pc + BitVec.ofNat 16 k)) →
    step s = .next t → ∃ t', step { s with mem := m } = .next t' ∧ { t' with mem := t.mem } = t

/-- R58, R261: a byte that a store wrote is what the next fetch from that address reads (D12). -/
def Obligations.StoredByteIsFetched : Prop :=
  ∀ s t : State, Memory.wf s.mem = true →
    ((exec .ldIndBcA s = .next t → t.byteAt (s.readPair .bc) = s.a ∧
        fetchByte { t with pc := s.readPair .bc } = .ok (s.a, { t with pc := s.readPair .bc + 1 })) ∧
     (exec .ldIndDeA s = .next t → fetchByte { t with pc := s.readPair .de } = .ok (s.a, { t with pc := s.readPair .de + 1 })) ∧
     (exec .ldIndHlIncA s = .next t → fetchByte { t with pc := s.readPair .hl } = .ok (s.a, { t with pc := s.readPair .hl + 1 })) ∧
     (exec .ldIndHlDecA s = .next t → fetchByte { t with pc := s.readPair .hl } = .ok (s.a, { t with pc := s.readPair .hl + 1 })))

/-- R170: "no state change" of the effect, from every state; a step on a byte 0x00 (D5, PRESUMED, assumption log 5) moves `pc` by one, records,
and changes nothing else. -/
def Obligations.NopStepAdvancesAndRecords : Prop :=
  ∀ s : State, exec .nop s = .next s ∧
    (s.Running → s.table = baselineTable → s.expected = none → s.byteAt s.pc = 0x00 →
      step s = .next (recorded (snapshot { s with pc := s.pc + 1 }) { s with pc := s.pc + 1 }))

/-- R161, R110: a `JP` to its own address spins: every step leaves the registers and memory as they are and records the same
snapshot. The byte 0xC3 is decision D5 (PRESUMED, assumption log 5), the condition on `pc` decision D4 (assumption log 6). -/
def Obligations.JumpToItselfSpins : Prop :=
  ∀ s : State, s.Running → s.table = baselineTable → s.expected = none → s.pc ≠ 0xFFFE →
    s.byteAt s.pc = 0xC3 → s.byteAt (s.pc + 1) = s.pc.extractLsb' 0 8 → s.byteAt (s.pc + 2) = s.pc.extractLsb' 8 8 →
    step s = .next (recorded (snapshot s) s)

/-! ## The invariant of the model -/

/-- The reset state satisfies the invariant. -/
def Obligations.ResetSatisfiesTheInvariant : Prop := State.reset.Inv

/-- Every step keeps the invariant: F's low nibble zero (R13), memory canonical (R40), `count` the length of the trace (R111, R180),
every entry 47 characters (R182). -/
def Obligations.StepKeepsTheInvariant : Prop :=
  ∀ s t : State, s.Inv → step s = .next t → t.Inv

/-- Every launch state satisfies the invariant (R208, R254). -/
def Obligations.LaunchSatisfiesTheInvariant : Prop := ∀ q : Launch, (launch q).Inv

/-! ## The trace log -/

/-- R182: the snapshot, character for character, with the rule's example; 47 characters; the AF field ends in `0` when F's low nibble
is zero. -/
def Obligations.SnapshotFormat : Prop :=
  (∀ s : State, snapshot s =
    "AF=".toList ++ hexOf (s.a.toNat * 256 + s.f.toNat) ++ " BC=".toList ++ hexOf (s.b.toNat * 256 + s.c.toNat) ++
    " DE=".toList ++ hexOf (s.d.toNat * 256 + s.e.toNat) ++ " HL=".toList ++ hexOf (s.h.toNat * 256 + s.l.toNat) ++
    " SP=".toList ++ hexOf s.sp.toNat ++ " PC=".toList ++ hexOf s.pc.toNat) ∧
  (∀ s : State, (snapshot s).length = 47) ∧
  (∀ s : State, s.f &&& 0x0F#8 = 0#8 → (snapshot s)[6]? = some '0') ∧
  snapshot { State.reset with
      a := 0x01, f := 0xB0, b := 0x00, c := 0x13, d := 0x00, e := 0xD8, h := 0x01, l := 0x4D, sp := 0xFFFE, pc := 0x0101 } =
    "AF=01B0 BC=0013 DE=00D8 HL=014D SP=FFFE PC=0101".toList

/-- R182, R188: the snapshot shows the six register values and nothing else: two states have one snapshot exactly when they agree
on all six. -/
def Obligations.SnapshotIsExactlyTheSixValues : Prop :=
  ∀ s t : State, snapshot s = snapshot t ↔
    (∀ p, s.readPair p = t.readPair p) ∧ s.sp = t.sp ∧ s.pc = t.pc

/-- R183, R185, R223: append, count, compare with the entry of the same ordinal; on a difference the fatal carries the 0-based index
and both strings, and the record stays (D11, assumption log 13). -/
def Obligations.RecordComparesWithTheExpectedEntry : Prop :=
  ∀ (s : State) (snap entry : Text) (entries : List Text), s.expected = some entries → entries[s.count]? = some entry →
    (snap = entry → traceRecord snap s = recorded snap s) ∧
    (snap ≠ entry → traceRecord snap s =
      { recorded snap s with fatal := some (.traceMismatch s.count entry snap) })

/-- R184: beyond the expected sequence a record is never compared; an empty sequence behaves as none. -/
def Obligations.NoComparisonBeyondTheExpectedSequence : Prop :=
  (∀ (s : State) (snap : Text) (entries : List Text), s.expected = some entries → entries.length ≤ s.count →
    traceRecord snap s = recorded snap s) ∧
  (∀ (s : State) (snap entry : Text) (entries : List Text), s.expected = some entries → s.fatal = none →
    entries[s.count]? = some entry → ((traceRecord snap s).fatal = none ↔ snap = entry)) ∧
  (∀ (s : State) (snap : Text), (s.expected = some [] ∨ s.expected = none) → traceRecord snap s = recorded snap s)

/-- R187: the log written as one text, each snapshot ended by a line feed, splits back into its entries (D11; assumption log 18). -/
def Obligations.LogTextSplitsBackIntoItsEntries : Prop :=
  ∀ entries : List Text, (∀ t ∈ entries, '\n' ∉ t) →
    parseExpected (serialise entries) = entries ∧
    (serialise entries).length = (entries.map List.length).sum + entries.length

/-! ## The host's operations -/

/-- R206: `Startup` changes nothing but `started`, and no rule reads `started`: the step after `Startup` is the step without it. -/
def Obligations.StartupOnlyMarksStarted : Prop :=
  ∀ s t : State, s.hostStartup = { s with started := true } ∧
    (step s = .next t → step s.hostStartup = .next t.hostStartup)

/-- R204: presets change the register bank only and cannot fail; those of the entry state give the values the rule lists (F as masked,
D22; flags by the positions of D1, assumption log 3). -/
def Obligations.PresetsReachTheEntryState : Prop :=
  (∀ (s : State) (p : Preset), applyPreset s p =
    { applyPreset s p with
      mem := s.mem, trace := s.trace, count := s.count, fatal := s.fatal, started := s.started, table := s.table,
      expected := s.expected }) ∧
  (∀ s : State, s.Running → (presetsOf Config.entryDmg).foldl State.hostPreset s =
    { s with
      a := 0x01, f := 0xB0, b := 0x00, c := 0x13, d := 0x00, e := 0xD8, h := 0x01, l := 0x4D, sp := 0xFFFE, pc := 0x0100 }) ∧
  (∀ s : State, s.f = 0xB0 →
    s.readFlag .z = true ∧ s.readFlag .n = false ∧ s.readFlag .h = true ∧ s.readFlag .c = true)

/-- R254, R253: with no load, preset, expected sequence or record, the launch state is the reset state but for `started`, its opcode
table being the baseline mapping (assumption log 11). -/
def Obligations.BareLaunchIsReset : Prop :=
  { launch Launch.bare with table := baselineTable, started := false } = State.reset ∧
  ∀ (bank : Bank) (opcode : Byte), lookup (launch Launch.bare).table bank opcode = lookup baselineTable bank opcode

/-- R202, R222: a load that overruns writes nothing and latches `OutOfBounds`, and the Machine never steps (D24, D28;
assumption log 15). -/
def Obligations.OverrunningLoadIsFatal : Prop :=
  ∀ (s : State) (bytes : List Byte) (offset : Int), s.Running → 65536 < offset + bytes.length →
    s.hostLoad bytes offset = { s with fatal := some (.outOfBounds offset bytes.length) } ∧
    step (s.hostLoad bytes offset) = .next (s.hostLoad bytes offset)

/-! ## Written effects: tables other than the baseline (R75, R201, D6; assumption log 12) -/

/-- R75: an effect neither reads nor writes the trace log, the opcode table, the expected sequence or `started`: with others in their
place it does the same and leaves those; it finishes or raises the `OutOfBounds` of a byte or word access outside [0, 65536)
(`load` is issued "never by an instruction", R48). -/
def Obligations.EffectsSeeRegistersAndMemoryOnly : Prop :=
  ∀ (e : Effect) (slots : List Int) (s o : State),
    runEffect e slots (s.withOutside o) = (runEffect e slots s).withOutside o ∧
    ((runEffect e slots s).fatal = s.fatal ∨ ∃ addr size, (runEffect e slots s).fatal = some (.outOfBounds addr size) ∧
      (size = 1 ∨ size = 2) ∧ (addr < 0 ∨ 65536 < addr + size))

/-- R201, R103, R105, R107: a step on the bytes of a key that the host has registered with a written effect runs that effect, from the
state with `pc` past those bytes, and records where it finishes. -/
def Obligations.RegisteredEffectRuns : Prop :=
  ∀ (s : State) (row : TableRow) (e : Effect) (n : Nat), s.Running → row.effect = .written e →
    ((n = 1 ∧ prefixBank (s.byteAt s.pc) = none ∧ row.bank = .default ∧ row.opcode = s.byteAt s.pc) ∨
      (n = 2 ∧ prefixBank (s.byteAt s.pc) = some row.bank ∧ row.opcode = s.byteAt (s.pc + 1))) →
    let t := runEffect e [] ((s.hostRegister row).advancePc n)
    step (s.hostRegister row) = .next (if t.fatal = none then traceRecord (snapshot t) t else t)

/-- R8, R105, R120 to R170: running an instruction's pseudocode, written out as an effect, is executing the instruction, from every state,
with its fatal. -/
def Obligations.PseudocodeIsTheMeaning : Prop :=
  ∀ (i : Instr) (s : State), execute (.written i.pseudocode) s = execute (.instr i) s

/-- R48, R222, R43: whatever the table holds, an `OutOfBounds` that a step raises is that of a byte or word access outside [0, 65536): no step
issues `load`. -/
def Obligations.StepRefusesOnlyByteAndWordAccesses : Prop :=
  ∀ (s t : State) (addr : Int) (size : Nat), s.Running → step s = .next t → t.fatal = some (.outOfBounds addr size) →
    (size = 1 ∨ size = 2) ∧ (addr < 0 ∨ 65536 < addr + size)
end

