-- ==== Sys2Proof/Laws/Decode.lean ====
section
/-! SUPPORT. Bytes of a word, lookup after registration, and the decoder on a sequence long enough to hold any instruction. -/

namespace Sys2Proof

@[simp] theorem wordOf_high_low (v : Word) : wordOf (highByte v) (lowByte v) = v :=
  BitVec.extractLsb'_append_extractLsb'

@[simp] theorem highByte_wordOf (hi lo : Byte) : highByte (wordOf hi lo) = hi := by
  rw [highByte, wordOf, BitVec.extractLsb'_append_eq_left]

@[simp] theorem lowByte_wordOf (hi lo : Byte) : lowByte (wordOf hi lo) = lo := by
  rw [lowByte, wordOf, BitVec.extractLsb'_append_eq_right]

theorem wordOf_toNat (hi lo : Byte) : (wordOf hi lo).toNat = hi.toNat * 256 + lo.toNat := by
  have := lo.isLt
  rw [wordOf, BitVec.toNat_append, Nat.shiftLeft_eq, Nat.mul_comm, ← Nat.two_pow_add_eq_or_of_lt this]

theorem hasKey_iff {r : TableRow} {bank : Bank} {opcode : Byte} :
    r.hasKey bank opcode = true ↔ r.bank = bank ∧ r.opcode = opcode := by
  simp [TableRow.hasKey]

/-- An entry that lookup finds stands in the table under the key. -/
theorem lookup_some {t : OpcodeTable} {bank : Bank} {opcode : Byte} {row : TableRow}
    (h : lookup t bank opcode = some row) : row ∈ t ∧ row.bank = bank ∧ row.opcode = opcode := by
  have hk : row.hasKey bank opcode = true := by simpa using List.find?_some h
  exact ⟨List.mem_of_find?_eq_some h, hasKey_iff.1 hk⟩

/-- No instruction reads more than two immediate bytes (R73). -/
theorem operandBytes_le (i : Instr) : i.operandBytes ≤ 2 := by
  cases i <;> simp [Instr.operandBytes]

/-- With two more bytes at hand, decoding the immediate never runs out of bytes. -/
theorem decodeOperand_two (i : Instr) (lo hi : Byte) (rest : List Byte) :
    ∃ rest', decodeOperand i (lo :: hi :: rest) = .ok (i.withOperand lo hi, rest') := by
  cases i <;> exact ⟨_, rfl⟩

/-- The decoder on four bytes or more: lookup decides, the list never runs out (R73). -/
theorem decodeWith_four (t : OpcodeTable) (b0 b1 b2 b3 : Byte) (rest : List Byte) :
    match prefixBank b0 with
    | none =>
      match lookup t .default b0 with
      | none => decodeWith t (b0 :: b1 :: b2 :: b3 :: rest) = .error (.unassigned .default b0)
      | some row =>
        match row.effect with
        | .instr i => ∃ r, decodeWith t (b0 :: b1 :: b2 :: b3 :: rest) = .ok (i.withOperand b1 b2, r)
        | .written _ => decodeWith t (b0 :: b1 :: b2 :: b3 :: rest) = .error (.otherEffect .default b0)
    | some bank =>
      match lookup t bank b1 with
      | none => decodeWith t (b0 :: b1 :: b2 :: b3 :: rest) = .error (.unassigned bank b1)
      | some row =>
        match row.effect with
        | .instr i => ∃ r, decodeWith t (b0 :: b1 :: b2 :: b3 :: rest) = .ok (i.withOperand b2 b3, r)
        | .written _ => decodeWith t (b0 :: b1 :: b2 :: b3 :: rest) = .error (.otherEffect bank b1) := by
  cases hp : prefixBank b0 with
  | none =>
    cases hl : lookup t .default b0 with
    | none => simp [decodeWith, hp, decodeIn, hl]
    | some row =>
      cases he : row.effect with
      | instr i => simpa [decodeWith, hp, decodeIn, hl, he] using decodeOperand_two i b1 b2 (b3 :: rest)
      | written e => simp [decodeWith, hp, decodeIn, hl, he]
  | some bank =>
    cases hl : lookup t bank b1 with
    | none => simp [decodeWith, hp, decodeIn, hl]
    | some row =>
      cases he : row.effect with
      | instr i => simpa [decodeWith, hp, decodeIn, hl, he] using decodeOperand_two i b2 b3 rest
      | written e => simp [decodeWith, hp, decodeIn, hl, he]

/-- Lookup after registration (R74). -/
theorem lookup_filter (t : OpcodeTable) (row : TableRow) {bank : Bank} {opcode : Byte}
    (h : ¬(row.bank = bank ∧ row.opcode = opcode)) :
    lookup (t.filter (fun r => !r.hasKey row.bank row.opcode)) bank opcode = lookup t bank opcode := by
  induction t with
  | nil => rfl
  | cons q t ih =>
    simp only [lookup] at ih ⊢
    by_cases hq : q.hasKey bank opcode = true
    · have : q.hasKey row.bank row.opcode = false := by
        by_contra hne
        obtain ⟨h1, h2⟩ := hasKey_iff.1 hq
        obtain ⟨h3, h4⟩ := hasKey_iff.1 (by simpa using hne)
        exact h ⟨h3 ▸ h1, h4 ▸ h2⟩
      simp [this, hq]
    · cases hf : q.hasKey row.bank row.opcode <;> simp [hf, hq, ih]

end Sys2Proof
end

