-- ==== Sys2Proof/Laws/Memory.lean ====
section
/-! SUPPORT. Memory: read after write, the canonical form kept, extensionality; the accessors at 16-bit addresses (spec/20_memory.md). -/

namespace Sys2Proof.Machine

@[simp] theorem memSize_eq : Config.memSize = 65536 := rfl

theorem wfFrom_cons {lo k : Nat} {v : Byte} {m : Memory} :
    Memory.wfFrom lo ((k, v) :: m) = true ↔
      lo ≤ k ∧ k < 65536 ∧ v ≠ 0#8 ∧ Memory.wfFrom (k + 1) m = true := by
  simp [Memory.wfFrom, unlistedByte, and_assoc]

theorem wfFrom_mono {lo lo' : Nat} (h : lo' ≤ lo) {m : Memory} (hm : Memory.wfFrom lo m = true) :
    Memory.wfFrom lo' m = true := by
  cases m with
  | nil => rfl
  | cons p m =>
    obtain ⟨h1, h2⟩ := wfFrom_cons.1 hm
    exact wfFrom_cons.2 ⟨by omega, h2⟩

theorem peek_cons (k : Nat) (v : Byte) (m : Memory) (x : Nat) :
    Memory.peek ((k, v) :: m) x = if k = x then v else Memory.peek m x := rfl

theorem peek_of_wfFrom {lo a : Nat} {m : Memory} (hm : Memory.wfFrom lo m = true) (h : a < lo) :
    Memory.peek m a = 0#8 := by
  induction m generalizing lo with
  | nil => rfl
  | cons p m ih =>
    obtain ⟨h1, -, -, h4⟩ := wfFrom_cons.1 hm
    rw [peek_cons, if_neg (by omega), ih h4 (by omega)]

theorem poke_cons (k : Nat) (w : Byte) (m : Memory) (a : Nat) (v : Byte) :
    Memory.poke ((k, w) :: m) a v =
      if a < k then (if v = 0#8 then (k, w) :: m else (a, v) :: (k, w) :: m)
      else if a = k then (if v = 0#8 then m else (a, v) :: m)
      else (k, w) :: Memory.poke m a v := rfl

theorem poke_wfFrom {lo a : Nat} {m : Memory} (hm : Memory.wfFrom lo m = true) (hlo : lo ≤ a) (ha : a < 65536)
    (v : Byte) : Memory.wfFrom lo (Memory.poke m a v) = true := by
  induction m generalizing lo with
  | nil =>
    by_cases hv : v = 0#8
    · simp [Memory.poke, unlistedByte, hv, Memory.wfFrom]
    · simp [Memory.poke, unlistedByte, hv, hlo, ha, Memory.wfFrom]
  | cons p m ih =>
    obtain ⟨k, w⟩ := p
    obtain ⟨h1, h2, h3, h4⟩ := wfFrom_cons.1 hm
    rw [poke_cons]
    by_cases hlt : a < k
    · by_cases hv : v = 0#8
      · simpa only [if_pos hlt, if_pos hv] using hm
      · simpa only [if_pos hlt, if_neg hv] using wfFrom_cons.2 ⟨hlo, ha, hv, wfFrom_cons.2 ⟨by omega, h2, h3, h4⟩⟩
    · by_cases hk : a = k
      · by_cases hv : v = 0#8
        · simpa only [if_neg hlt, if_pos hk, if_pos hv] using wfFrom_mono (by omega) h4
        · simpa only [if_neg hlt, if_pos hk, if_neg hv] using
            wfFrom_cons.2 ⟨hlo, ha, hv, wfFrom_mono (by omega) h4⟩
      · simpa only [if_neg hlt, if_neg hk] using wfFrom_cons.2 ⟨h1, h2, h3, ih h4 (by omega)⟩

/-- A write keeps the canonical form. -/
theorem poke_wf {a : Nat} {m : Memory} (hm : Memory.wf m = true) (ha : a < 65536) (v : Byte) :
    Memory.wf (Memory.poke m a v) = true :=
  poke_wfFrom hm (Nat.zero_le a) ha v

theorem peek_poke_wfFrom {lo : Nat} {m : Memory} (hm : Memory.wfFrom lo m = true) (a x : Nat) (v : Byte) :
    Memory.peek (Memory.poke m a v) x = if x = a then v else Memory.peek m x := by
  induction m generalizing lo with
  | nil =>
    by_cases hv : v = 0#8
    · simp [Memory.poke, unlistedByte, hv, Memory.peek]
    · simp [Memory.poke, unlistedByte, hv, Memory.peek, eq_comm]
  | cons p m ih =>
    obtain ⟨k, w⟩ := p
    obtain ⟨-, -, -, h4⟩ := wfFrom_cons.1 hm
    have low : ∀ y, y ≤ k → Memory.peek m y = 0#8 := fun y hy => peek_of_wfFrom h4 (by omega)
    rw [poke_cons]
    by_cases hlt : a < k
    · by_cases hv : v = 0#8
      · rw [if_pos hlt, if_pos hv, peek_cons]
        by_cases hx : x = a
        · rw [if_pos hx, if_neg (by omega), low x (by omega), hv]
        · rw [if_neg hx]
      · rw [if_pos hlt, if_neg hv, peek_cons]
        simp only [eq_comm]
    · rw [if_neg hlt]
      by_cases hk : a = k
      · by_cases hv : v = 0#8
        · rw [if_pos hk, if_pos hv, peek_cons]
          by_cases hx : x = a
          · rw [if_pos hx, low x (by omega), hv]
          · rw [if_neg hx, if_neg (by omega)]
        · rw [if_pos hk, if_neg hv, peek_cons, peek_cons]
          by_cases hx : x = a
          · rw [if_pos hx, if_pos hx.symm]
          · rw [if_neg hx, if_neg (by omega), if_neg (by omega)]
      · rw [if_neg hk, peek_cons, ih h4, peek_cons]
        by_cases hx : k = x
        · rw [if_pos hx, if_pos hx, if_neg (by omega)]
        · rw [if_neg hx, if_neg hx]

/-- Read after write. -/
theorem peek_poke {m : Memory} (hm : Memory.wf m = true) (a x : Nat) (v : Byte) :
    Memory.peek (Memory.poke m a v) x = if x = a then v else Memory.peek m x :=
  peek_poke_wfFrom hm a x v

theorem pokeAll_wf {m : Memory} (hm : Memory.wf m = true) (bytes : List Byte) {a : Nat} (ha : a + bytes.length ≤ 65536) :
    Memory.wf (Memory.pokeAll m a bytes) = true := by
  induction bytes generalizing m a with
  | nil => exact hm
  | cons b bs ih =>
    simp only [List.length_cons] at ha
    exact ih (poke_wf hm (by omega) b) (by omega)

/-- Read after a copy of bytes. -/
theorem peek_pokeAll {m : Memory} (hm : Memory.wf m = true) (bytes : List Byte) {a : Nat}
    (ha : a + bytes.length ≤ 65536) (x : Nat) :
    Memory.peek (Memory.pokeAll m a bytes) x =
      if a ≤ x ∧ x < a + bytes.length then bytes.getD (x - a) 0 else Memory.peek m x := by
  induction bytes generalizing m a with
  | nil => simp [Memory.pokeAll, show ¬(a ≤ x ∧ x < a) by omega]
  | cons b bs ih =>
    simp only [List.length_cons] at ha ⊢
    rw [Memory.pokeAll, ih (poke_wf hm (by omega) b) (by omega), peek_poke hm]
    by_cases hx : x = a
    · subst hx
      simp [show ¬(x + 1 ≤ x) by omega]
    · by_cases hin : a + 1 ≤ x ∧ x < a + 1 + bs.length
      · obtain ⟨j, rfl⟩ : ∃ j, x = a + 1 + j := ⟨x - (a + 1), by omega⟩
        rw [if_pos hin, if_pos (by omega), show a + 1 + j - a = j + 1 by omega, List.getD_cons_succ,
          show a + 1 + j - (a + 1) = j by omega]
      · rw [if_neg hin, if_neg hx, if_neg (by omega)]

/-! ### The accessors at an address that a 16-bit register holds -/

/-- The bounds condition of R44 to R48 as an inequality between integers. -/
theorem inBounds_iff (addr : Int) (size : Nat) : inBounds addr size = true ↔ 0 ≤ addr ∧ addr + size ≤ 65536 := by
  cases addr with
  | ofNat a => simp [inBounds, Config.memSize]; omega
  | negSucc a => simp [inBounds]

/-! ### Every accessor that writes keeps the canonical form -/

theorem writeByte_wf {m m' : Memory} {addr : Int} {v : Byte} (hm : Memory.wf m = true) (h : writeByte m addr v = .ok m') :
    Memory.wf m' = true := by
  unfold writeByte at h
  by_cases hb : inBounds addr 1 = true
  · rw [if_pos hb] at h
    cases h
    have := (inBounds_iff _ _).1 hb
    exact poke_wf hm (by omega) v
  · rw [if_neg hb] at h; cases h

theorem writeWord_wf {m m' : Memory} {addr : Int} {v : Word} (hm : Memory.wf m = true) (h : writeWord m addr v = .ok m') :
    Memory.wf m' = true := by
  unfold writeWord at h
  by_cases hb : inBounds addr 2 = true
  · rw [if_pos hb] at h
    cases h
    have := (inBounds_iff _ _).1 hb
    exact poke_wf (poke_wf hm (by omega) _) (by omega) _
  · rw [if_neg hb] at h; cases h

theorem load_wf {m m' : Memory} {bytes : List Byte} {offset : Int} (hm : Memory.wf m = true)
    (h : load m bytes offset = .ok m') : Memory.wf m' = true := by
  unfold load at h
  by_cases hb : inBounds offset bytes.length = true
  · rw [if_pos hb] at h
    cases h
    have := (inBounds_iff _ _).1 hb
    exact pokeAll_wf hm bytes (by omega)
  · rw [if_neg hb] at h; cases h

@[simp] theorem inBounds_word (a : Word) : inBounds (a.toNat : Int) 1 = true := by
  have := a.isLt
  exact (inBounds_iff _ _).2 (by omega)

/-- A byte read at a register's value never fails (R44). -/
@[simp] theorem readByte_word (m : Memory) (a : Word) : readByte m a.toNat = .ok (Memory.peek m a.toNat) := by
  simp [readByte]

/-- A byte write at a register's value never fails (R45). -/
@[simp] theorem writeByte_word (m : Memory) (a : Word) (v : Byte) :
    writeByte m a.toNat v = .ok (Memory.poke m a.toNat v) := by
  simp [writeByte]

theorem inBounds_word_two (a : Word) : inBounds (a.toNat : Int) 2 = decide (a ≠ 0xFFFF#16) := by
  have := a.isLt
  have hne : a ≠ 0xFFFF#16 ↔ a.toNat ≠ 65535 :=
    not_congr ⟨fun h => by rw [h]; rfl, fun h => BitVec.eq_of_toNat_eq h⟩
  rw [Bool.eq_iff_iff, inBounds_iff, decide_eq_true_iff, hne]
  omega

/-- A word read fails at 0xFFFF and nowhere else (R46). -/
theorem readWord_word (m : Memory) (a : Word) :
    readWord m a.toNat =
      if a = 0xFFFF#16 then .error (.outOfBounds 0xFFFF 2)
      else .ok (wordOf (Memory.peek m (a.toNat + 1)) (Memory.peek m a.toNat)) := by
  rw [readWord, inBounds_word_two]
  by_cases h : a = 0xFFFF#16
  · subst h; rfl
  · simp [h]

end Sys2Proof.Machine
end

