-- ==== Sys2Proof/Laws/State.lean ====
section
/-! SUPPORT. One lemma per field per update of the state, so that no later proof unfolds a record update. -/

namespace Sys2Proof.Machine

/-! ### `State.raise` -/

@[simp] theorem raise_a (s : State) (r : Fault) : (s.raise r).a = s.a := rfl
@[simp] theorem raise_b (s : State) (r : Fault) : (s.raise r).b = s.b := rfl
@[simp] theorem raise_c (s : State) (r : Fault) : (s.raise r).c = s.c := rfl
@[simp] theorem raise_d (s : State) (r : Fault) : (s.raise r).d = s.d := rfl
@[simp] theorem raise_e (s : State) (r : Fault) : (s.raise r).e = s.e := rfl
@[simp] theorem raise_f (s : State) (r : Fault) : (s.raise r).f = s.f := rfl
@[simp] theorem raise_h (s : State) (r : Fault) : (s.raise r).h = s.h := rfl
@[simp] theorem raise_l (s : State) (r : Fault) : (s.raise r).l = s.l := rfl
@[simp] theorem raise_sp (s : State) (r : Fault) : (s.raise r).sp = s.sp := rfl
@[simp] theorem raise_pc (s : State) (r : Fault) : (s.raise r).pc = s.pc := rfl
@[simp] theorem raise_mem (s : State) (r : Fault) : (s.raise r).mem = s.mem := rfl
@[simp] theorem raise_trace (s : State) (r : Fault) : (s.raise r).trace = s.trace := rfl
@[simp] theorem raise_count (s : State) (r : Fault) : (s.raise r).count = s.count := rfl
@[simp] theorem raise_started (s : State) (r : Fault) : (s.raise r).started = s.started := rfl
@[simp] theorem raise_table (s : State) (r : Fault) : (s.raise r).table = s.table := rfl
@[simp] theorem raise_expected (s : State) (r : Fault) : (s.raise r).expected = s.expected := rfl
@[simp] theorem raise_fatal (s : State) (r : Fault) : (s.raise r).fatal = some r := rfl

/-! ### `State.advancePc` -/

@[simp] theorem advancePc_a (s : State) (k : Nat) : (s.advancePc k).a = s.a := rfl
@[simp] theorem advancePc_b (s : State) (k : Nat) : (s.advancePc k).b = s.b := rfl
@[simp] theorem advancePc_c (s : State) (k : Nat) : (s.advancePc k).c = s.c := rfl
@[simp] theorem advancePc_d (s : State) (k : Nat) : (s.advancePc k).d = s.d := rfl
@[simp] theorem advancePc_e (s : State) (k : Nat) : (s.advancePc k).e = s.e := rfl
@[simp] theorem advancePc_f (s : State) (k : Nat) : (s.advancePc k).f = s.f := rfl
@[simp] theorem advancePc_h (s : State) (k : Nat) : (s.advancePc k).h = s.h := rfl
@[simp] theorem advancePc_l (s : State) (k : Nat) : (s.advancePc k).l = s.l := rfl
@[simp] theorem advancePc_sp (s : State) (k : Nat) : (s.advancePc k).sp = s.sp := rfl
@[simp] theorem advancePc_mem (s : State) (k : Nat) : (s.advancePc k).mem = s.mem := rfl
@[simp] theorem advancePc_trace (s : State) (k : Nat) : (s.advancePc k).trace = s.trace := rfl
@[simp] theorem advancePc_count (s : State) (k : Nat) : (s.advancePc k).count = s.count := rfl
@[simp] theorem advancePc_fatal (s : State) (k : Nat) : (s.advancePc k).fatal = s.fatal := rfl
@[simp] theorem advancePc_started (s : State) (k : Nat) : (s.advancePc k).started = s.started := rfl
@[simp] theorem advancePc_table (s : State) (k : Nat) : (s.advancePc k).table = s.table := rfl
@[simp] theorem advancePc_expected (s : State) (k : Nat) : (s.advancePc k).expected = s.expected := rfl
@[simp] theorem advancePc_pc (s : State) (k : Nat) : (s.advancePc k).pc = s.pc + BitVec.ofNat 16 k := rfl

/-! ### `State.setFlag` -/

@[simp] theorem setFlag_a (s : State) (fl : Flag) (v : Bool) : (s.setFlag fl v).a = s.a := rfl
@[simp] theorem setFlag_b (s : State) (fl : Flag) (v : Bool) : (s.setFlag fl v).b = s.b := rfl
@[simp] theorem setFlag_c (s : State) (fl : Flag) (v : Bool) : (s.setFlag fl v).c = s.c := rfl
@[simp] theorem setFlag_d (s : State) (fl : Flag) (v : Bool) : (s.setFlag fl v).d = s.d := rfl
@[simp] theorem setFlag_e (s : State) (fl : Flag) (v : Bool) : (s.setFlag fl v).e = s.e := rfl
@[simp] theorem setFlag_h (s : State) (fl : Flag) (v : Bool) : (s.setFlag fl v).h = s.h := rfl
@[simp] theorem setFlag_l (s : State) (fl : Flag) (v : Bool) : (s.setFlag fl v).l = s.l := rfl
@[simp] theorem setFlag_sp (s : State) (fl : Flag) (v : Bool) : (s.setFlag fl v).sp = s.sp := rfl
@[simp] theorem setFlag_pc (s : State) (fl : Flag) (v : Bool) : (s.setFlag fl v).pc = s.pc := rfl
@[simp] theorem setFlag_mem (s : State) (fl : Flag) (v : Bool) : (s.setFlag fl v).mem = s.mem := rfl
@[simp] theorem setFlag_trace (s : State) (fl : Flag) (v : Bool) : (s.setFlag fl v).trace = s.trace := rfl
@[simp] theorem setFlag_count (s : State) (fl : Flag) (v : Bool) : (s.setFlag fl v).count = s.count := rfl
@[simp] theorem setFlag_fatal (s : State) (fl : Flag) (v : Bool) : (s.setFlag fl v).fatal = s.fatal := rfl
@[simp] theorem setFlag_started (s : State) (fl : Flag) (v : Bool) : (s.setFlag fl v).started = s.started := rfl
@[simp] theorem setFlag_table (s : State) (fl : Flag) (v : Bool) : (s.setFlag fl v).table = s.table := rfl
@[simp] theorem setFlag_expected (s : State) (fl : Flag) (v : Bool) : (s.setFlag fl v).expected = s.expected := rfl

/-! ### `State.setXorFlags` -/

@[simp] theorem setXorFlags_a (s : State) (res : Byte) : (s.setXorFlags res).a = s.a := rfl
@[simp] theorem setXorFlags_b (s : State) (res : Byte) : (s.setXorFlags res).b = s.b := rfl
@[simp] theorem setXorFlags_c (s : State) (res : Byte) : (s.setXorFlags res).c = s.c := rfl
@[simp] theorem setXorFlags_d (s : State) (res : Byte) : (s.setXorFlags res).d = s.d := rfl
@[simp] theorem setXorFlags_e (s : State) (res : Byte) : (s.setXorFlags res).e = s.e := rfl
@[simp] theorem setXorFlags_h (s : State) (res : Byte) : (s.setXorFlags res).h = s.h := rfl
@[simp] theorem setXorFlags_l (s : State) (res : Byte) : (s.setXorFlags res).l = s.l := rfl
@[simp] theorem setXorFlags_sp (s : State) (res : Byte) : (s.setXorFlags res).sp = s.sp := rfl
@[simp] theorem setXorFlags_pc (s : State) (res : Byte) : (s.setXorFlags res).pc = s.pc := rfl
@[simp] theorem setXorFlags_mem (s : State) (res : Byte) : (s.setXorFlags res).mem = s.mem := rfl
@[simp] theorem setXorFlags_trace (s : State) (res : Byte) : (s.setXorFlags res).trace = s.trace := rfl
@[simp] theorem setXorFlags_count (s : State) (res : Byte) : (s.setXorFlags res).count = s.count := rfl
@[simp] theorem setXorFlags_fatal (s : State) (res : Byte) : (s.setXorFlags res).fatal = s.fatal := rfl
@[simp] theorem setXorFlags_started (s : State) (res : Byte) : (s.setXorFlags res).started = s.started := rfl
@[simp] theorem setXorFlags_table (s : State) (res : Byte) : (s.setXorFlags res).table = s.table := rfl
@[simp] theorem setXorFlags_expected (s : State) (res : Byte) : (s.setXorFlags res).expected = s.expected := rfl

/-! ### `State.setBitFlags` -/

@[simp] theorem setBitFlags_a (s : State) (tested : Bool) : (s.setBitFlags tested).a = s.a := rfl
@[simp] theorem setBitFlags_b (s : State) (tested : Bool) : (s.setBitFlags tested).b = s.b := rfl
@[simp] theorem setBitFlags_c (s : State) (tested : Bool) : (s.setBitFlags tested).c = s.c := rfl
@[simp] theorem setBitFlags_d (s : State) (tested : Bool) : (s.setBitFlags tested).d = s.d := rfl
@[simp] theorem setBitFlags_e (s : State) (tested : Bool) : (s.setBitFlags tested).e = s.e := rfl
@[simp] theorem setBitFlags_h (s : State) (tested : Bool) : (s.setBitFlags tested).h = s.h := rfl
@[simp] theorem setBitFlags_l (s : State) (tested : Bool) : (s.setBitFlags tested).l = s.l := rfl
@[simp] theorem setBitFlags_sp (s : State) (tested : Bool) : (s.setBitFlags tested).sp = s.sp := rfl
@[simp] theorem setBitFlags_pc (s : State) (tested : Bool) : (s.setBitFlags tested).pc = s.pc := rfl
@[simp] theorem setBitFlags_mem (s : State) (tested : Bool) : (s.setBitFlags tested).mem = s.mem := rfl
@[simp] theorem setBitFlags_trace (s : State) (tested : Bool) : (s.setBitFlags tested).trace = s.trace := rfl
@[simp] theorem setBitFlags_count (s : State) (tested : Bool) : (s.setBitFlags tested).count = s.count := rfl
@[simp] theorem setBitFlags_fatal (s : State) (tested : Bool) : (s.setBitFlags tested).fatal = s.fatal := rfl
@[simp] theorem setBitFlags_started (s : State) (tested : Bool) : (s.setBitFlags tested).started = s.started := rfl
@[simp] theorem setBitFlags_table (s : State) (tested : Bool) : (s.setBitFlags tested).table = s.table := rfl
@[simp] theorem setBitFlags_expected (s : State) (tested : Bool) : (s.setBitFlags tested).expected = s.expected := rfl

/-! ### `State.hostStartup` -/

@[simp] theorem hostStartup_a (s : State) : (s.hostStartup).a = s.a := rfl
@[simp] theorem hostStartup_b (s : State) : (s.hostStartup).b = s.b := rfl
@[simp] theorem hostStartup_c (s : State) : (s.hostStartup).c = s.c := rfl
@[simp] theorem hostStartup_d (s : State) : (s.hostStartup).d = s.d := rfl
@[simp] theorem hostStartup_e (s : State) : (s.hostStartup).e = s.e := rfl
@[simp] theorem hostStartup_f (s : State) : (s.hostStartup).f = s.f := rfl
@[simp] theorem hostStartup_h (s : State) : (s.hostStartup).h = s.h := rfl
@[simp] theorem hostStartup_l (s : State) : (s.hostStartup).l = s.l := rfl
@[simp] theorem hostStartup_sp (s : State) : (s.hostStartup).sp = s.sp := rfl
@[simp] theorem hostStartup_pc (s : State) : (s.hostStartup).pc = s.pc := rfl
@[simp] theorem hostStartup_mem (s : State) : (s.hostStartup).mem = s.mem := rfl
@[simp] theorem hostStartup_trace (s : State) : (s.hostStartup).trace = s.trace := rfl
@[simp] theorem hostStartup_count (s : State) : (s.hostStartup).count = s.count := rfl
@[simp] theorem hostStartup_fatal (s : State) : (s.hostStartup).fatal = s.fatal := rfl
@[simp] theorem hostStartup_table (s : State) : (s.hostStartup).table = s.table := rfl
@[simp] theorem hostStartup_expected (s : State) : (s.hostStartup).expected = s.expected := rfl

/-! ### `State.writeReg`: everything but the eight registers -/

@[simp] theorem writeReg_sp (s : State) (r : Reg8) (v : Byte) : (s.writeReg r v).sp = s.sp := by cases r <;> rfl
@[simp] theorem writeReg_pc (s : State) (r : Reg8) (v : Byte) : (s.writeReg r v).pc = s.pc := by cases r <;> rfl
@[simp] theorem writeReg_mem (s : State) (r : Reg8) (v : Byte) : (s.writeReg r v).mem = s.mem := by cases r <;> rfl
@[simp] theorem writeReg_trace (s : State) (r : Reg8) (v : Byte) : (s.writeReg r v).trace = s.trace := by cases r <;> rfl
@[simp] theorem writeReg_count (s : State) (r : Reg8) (v : Byte) : (s.writeReg r v).count = s.count := by cases r <;> rfl
@[simp] theorem writeReg_fatal (s : State) (r : Reg8) (v : Byte) : (s.writeReg r v).fatal = s.fatal := by cases r <;> rfl
@[simp] theorem writeReg_started (s : State) (r : Reg8) (v : Byte) : (s.writeReg r v).started = s.started := by cases r <;> rfl
@[simp] theorem writeReg_table (s : State) (r : Reg8) (v : Byte) : (s.writeReg r v).table = s.table := by cases r <;> rfl
@[simp] theorem writeReg_expected (s : State) (r : Reg8) (v : Byte) : (s.writeReg r v).expected = s.expected := by cases r <;> rfl

/-! ### `State.writePair`: everything but the eight registers -/

@[simp] theorem writePair_sp (s : State) (p : Pair) (v : Word) : (s.writePair p v).sp = s.sp := by cases p <;> rfl
@[simp] theorem writePair_pc (s : State) (p : Pair) (v : Word) : (s.writePair p v).pc = s.pc := by cases p <;> rfl
@[simp] theorem writePair_mem (s : State) (p : Pair) (v : Word) : (s.writePair p v).mem = s.mem := by cases p <;> rfl
@[simp] theorem writePair_trace (s : State) (p : Pair) (v : Word) : (s.writePair p v).trace = s.trace := by cases p <;> rfl
@[simp] theorem writePair_count (s : State) (p : Pair) (v : Word) : (s.writePair p v).count = s.count := by cases p <;> rfl
@[simp] theorem writePair_fatal (s : State) (p : Pair) (v : Word) : (s.writePair p v).fatal = s.fatal := by cases p <;> rfl
@[simp] theorem writePair_started (s : State) (p : Pair) (v : Word) : (s.writePair p v).started = s.started := by cases p <;> rfl
@[simp] theorem writePair_table (s : State) (p : Pair) (v : Word) : (s.writePair p v).table = s.table := by cases p <;> rfl
@[simp] theorem writePair_expected (s : State) (p : Pair) (v : Word) : (s.writePair p v).expected = s.expected := by cases p <;> rfl

/-! ### Register bank: reads after writes -/

@[simp] theorem readReg_writeReg_self (s : State) (r : Reg8) (v : Byte) :
    (s.writeReg r v).readReg r = if r = .f then maskF v else v := by cases r <;> rfl

theorem readReg_writeReg_other (s : State) {r q : Reg8} (h : q ≠ r) (v : Byte) :
    (s.writeReg r v).readReg q = s.readReg q := by
  cases r <;> cases q <;> first | exact absurd rfl h | rfl

/-- The flags of `XOR r` as one value of F (R140). -/
theorem setXorFlags_f (s : State) (res : Byte) :
    (s.setXorFlags res).f = if res = 0#8 then 0x80#8 else 0x00#8 := by
  have mask : ∀ x : Byte, ∀ z : Bool,
      ((((x &&& (0xF0#8 &&& ~~~flagMask .z) ||| (if z then flagMask .z else 0#8)) &&& (0xF0#8 &&& ~~~flagMask .n) ||| 0#8)
        &&& (0xF0#8 &&& ~~~flagMask .h) ||| 0#8) &&& (0xF0#8 &&& ~~~flagMask .c) ||| 0#8) =
      if z then 0x80#8 else 0x00#8 := by decide
  by_cases h : res = 0#8
  · have := mask s.f true; simpa [State.setXorFlags, State.setFlag, h] using this
  · have := mask s.f false; simpa [State.setXorFlags, State.setFlag, h] using this

/-- The flags of `BIT b, r` as one value of F (R150). -/
theorem setBitFlags_f (s : State) (tested : Bool) :
    (s.setBitFlags tested).f = (if tested then 0x00#8 else 0x80#8) ||| 0x20#8 ||| (s.f &&& 0x10#8) := by
  have mask : ∀ x : Byte, ∀ z : Bool,
      (((x &&& (0xF0#8 &&& ~~~flagMask .z) ||| (if !z then flagMask .z else 0#8)) &&& (0xF0#8 &&& ~~~flagMask .n) ||| 0#8)
        &&& (0xF0#8 &&& ~~~flagMask .h) ||| flagMask .h) =
      (if z then 0x00#8 else 0x80#8) ||| 0x20#8 ||| (x &&& 0x10#8) := by decide
  simpa [State.setBitFlags, State.setFlag] using mask s.f tested

end Sys2Proof.Machine
end

