-- ==== Sys2Proof/Laws/Ops.lean ====
section
/-! SUPPORT. One lemma per shared operation: what it answers, for every state. -/

namespace Sys2Proof.Machine

/-! ### Immediates and stores -/

/-- A one-byte immediate never fails (R76). -/
@[simp] theorem imm8_eq (s : State) : imm8 s = .ok (s.byteAt s.pc, s.advancePc 1) := by
  simp [imm8, State.byteAt]

/-- A two-byte immediate fails at 0xFFFF and nowhere else (R77). -/
theorem imm16_eq (s : State) :
    imm16 s =
      if s.pc = 0xFFFF#16 then .error (.outOfBounds 0xFFFF 2)
      else .ok (wordOf (s.byteAt (s.pc + 1)) (s.byteAt s.pc), s.advancePc 2) := by
  rw [imm16, readWord_word]
  by_cases h : s.pc = 0xFFFF#16
  · rw [if_pos h, if_pos h]
  · have hlt : s.pc.toNat ≠ 65535 := fun hn => h (BitVec.eq_of_toNat_eq hn)
    have : (s.pc + 1).toNat = s.pc.toNat + 1 := by
      have := s.pc.isLt
      rw [BitVec.toNat_add]; simp; omega
    rw [if_neg h, if_neg h, State.byteAt, State.byteAt, this]

/-- Whether an instruction's immediate cannot be read: two bytes at 0xFFFF (R77). -/
abbrev ImmediateFails (i : Instr) (s : State) : Prop := i.operandBytes = 2 ∧ s.pc = 0xFFFF#16

theorem withOperand_of_none {i : Instr} (h : i.operandBytes = 0) (lo hi : Byte) : i.withOperand lo hi = i := by
  cases i <;> first | rfl | simp [Instr.operandBytes] at h

theorem withOperand_of_one {i : Instr} (h : i.operandBytes = 1) (lo hi hi' : Byte) :
    i.withOperand lo hi = i.withOperand lo hi' := by
  cases i <;> first | rfl | simp [Instr.operandBytes] at h

@[simp] theorem operandBytes_withOperand (i : Instr) (lo hi : Byte) : (i.withOperand lo hi).operandBytes = i.operandBytes := by
  cases i <;> rfl

/-- An instruction's immediate: the bytes at `pc`, or the fatal. -/
theorem readImmediate_eq (i : Instr) (s : State) :
    readImmediate i s =
      if ImmediateFails i s then .error (.outOfBounds 0xFFFF 2)
      else .ok (i.withOperand (s.byteAt s.pc) (s.byteAt (s.pc + 1)), s.advancePc i.operandBytes) := by
  have hle := operandBytes_le i
  obtain h | h | h : i.operandBytes = 0 ∨ i.operandBytes = 1 ∨ i.operandBytes = 2 := by omega
  · have zero : s.advancePc 0 = s := by simp [State.advancePc]
    rw [if_neg (by simp [ImmediateFails, h]), withOperand_of_none h, h, zero]
    simp only [readImmediate, h]
  · rw [if_neg (by simp [ImmediateFails, h]), withOperand_of_one h _ _ 0, h]
    simp only [readImmediate, h, imm8_eq]
  · by_cases hp : s.pc = 0xFFFF#16
    · simp only [readImmediate, h, imm16_eq, ImmediateFails, hp, and_self, if_true]
    · simp only [readImmediate, h, imm16_eq, ImmediateFails, hp, and_false, if_false, lowByte_wordOf, highByte_wordOf]

/-- A store of an effect never fails (R45). -/
@[simp] theorem storeByte_eq (s : State) (addr : Word) (v : Byte) (next : State → Outcome) :
    storeByte s addr v next = next { s with mem := Memory.poke s.mem addr.toNat v } := by
  simp [storeByte]

/-! ### The engine -/

/-- A fetch never fails (R101). -/
@[simp] theorem fetchByte_eq (s : State) : fetchByte s = .ok (s.byteAt s.pc, s.advancePc 1) := imm8_eq s

@[simp] theorem byteAt_advancePc (s : State) (k : Nat) (addr : Word) : (s.advancePc k).byteAt addr = s.byteAt addr := rfl

theorem advancePc_add (s : State) (j k : Nat) : (s.advancePc j).advancePc k = s.advancePc (j + k) := by
  simp [State.advancePc, BitVec.ofNat_add, BitVec.add_assoc]

/-- Every instruction answers a next state (R107). -/
theorem exec_next (i : Instr) (s : State) : ∃ t, exec i s = .next t := by
  cases i with
  | ldIndBcA => exact ⟨_, by rw [exec, execLdIndBcA, storeAThroughPair, storeByte_eq]⟩
  | ldIndDeA => exact ⟨_, by rw [exec, execLdIndDeA, storeAThroughPair, storeByte_eq]⟩
  | ldIndHlIncA => exact ⟨_, by rw [exec, execLdIndHlIncA, storeByte_eq]⟩
  | ldIndHlDecA => exact ⟨_, by rw [exec, execLdIndHlDecA, storeByte_eq]⟩
  | _ => exact ⟨_, rfl⟩

/-- `Execute` of an instruction: the fatal of its immediate, or its meaning on the bytes at `pc` (R105). -/
theorem execute_instr (i : Instr) (s : State) :
    execute (.instr i) s =
      if ImmediateFails i s then .next (s.raise (.outOfBounds 0xFFFF 2))
      else exec (i.withOperand (s.byteAt s.pc) (s.byteAt (s.pc + 1))) (s.advancePc i.operandBytes) := by
  rw [execute, readImmediate_eq]
  by_cases h : ImmediateFails i s
  · simp only [if_pos h]
  · simp only [if_neg h]

/-- Fetch, ResolveBank and Lookup are the decoder on the bytes at `pc` (R101 to R104): an entry with an instruction's effect, one with a
written effect, or the fatal of an unassigned key. The bytes never run out. -/
theorem lookupEntry_cases (s : State) :
    (∃ row i rest, row ∈ s.table ∧ row.effect = .instr i ∧ lookupEntry s = .ok (row, s.atEffect) ∧
      decodeWith s.table s.window =
        .ok (i.withOperand (s.byteAt s.atEffect.pc) (s.byteAt (s.atEffect.pc + 1)), rest)) ∨
    (∃ row e bank opcode, lookup s.table bank opcode = some row ∧ row.effect = .written e ∧ lookupEntry s = .ok (row, s.atEffect) ∧
      decodeWith s.table s.window = .error (.otherEffect bank opcode)) ∨
    (∃ bank opcode, lookupEntry s = .error (.unimplementedOpcode bank opcode, s.atEffect) ∧
      decodeWith s.table s.window = .error (.unassigned bank opcode)) := by
  have four := decodeWith_four s.table (s.byteAt s.pc) (s.byteAt (s.pc + 1)) (s.byteAt (s.pc + 2))
    (s.byteAt (s.pc + 3)) []
  have one : (1 : Word) = 1#16 := rfl
  cases hp : prefixBank (s.byteAt s.pc) with
  | none =>
    have hs : s.atEffect = s.advancePc 1 := by simp [State.atEffect, headerBytes, hp]
    cases hl : lookup s.table .default (s.byteAt s.pc) with
    | none =>
      simp only [hp, hl] at four
      exact .inr (.inr ⟨_, _, by simp [lookupEntry, resolveBank, hp, hl, hs], four⟩)
    | some row =>
      have hr : lookupEntry s = .ok (row, s.atEffect) := by simp [lookupEntry, resolveBank, hp, hl, hs]
      cases he : row.effect with
      | instr i =>
        simp only [hp, hl, he] at four
        obtain ⟨rest, hd⟩ := four
        refine .inl ⟨row, i, rest, (lookup_some hl).1, he, hr, ?_⟩
        rw [hs, advancePc_pc, BitVec.add_assoc]
        exact hd
      | written e =>
        simp only [hp, hl, he] at four
        exact .inr (.inl ⟨row, e, _, _, hl, he, hr, four⟩)
  | some bank =>
    have hs : s.atEffect = s.advancePc 2 := by simp [State.atEffect, headerBytes, hp]
    cases hl : lookup s.table bank (s.byteAt (s.pc + 1)) with
    | none =>
      simp only [hp, hl] at four
      rw [one] at hl
      exact .inr (.inr ⟨_, _, by simp [lookupEntry, resolveBank, hp, hl, hs, advancePc_add], four⟩)
    | some row =>
      have hr : lookupEntry s = .ok (row, s.atEffect) := by
        rw [one] at hl
        simp [lookupEntry, resolveBank, hp, hl, hs, advancePc_add]
      cases he : row.effect with
      | instr i =>
        simp only [hp, hl, he] at four
        obtain ⟨rest, hd⟩ := four
        refine .inl ⟨row, i, rest, (lookup_some hl).1, he, hr, ?_⟩
        rw [hs, advancePc_pc, BitVec.add_assoc]
        exact hd
      | written e =>
        simp only [hp, hl, he] at four
        exact .inr (.inl ⟨row, e, _, _, hl, he, hr, four⟩)

/-! ### The step -/

/-- A step from a Machine with no fatal latched (R107): the fatal of a decoded instruction's immediate; its meaning, and a record; a
written effect, and a record; or the fatal of an unassigned opcode. -/
theorem step_cases {s t : State} (hs : s.fatal = none) (h : step s = .next t) :
    (∃ i rest, decodeWith s.table s.window = .ok (i, rest) ∧
      ((ImmediateFails i s.atEffect ∧ t = s.atEffect.raise (.outOfBounds 0xFFFF 2)) ∨
        (¬ImmediateFails i s.atEffect ∧
          ∃ t', exec i (s.atEffect.advancePc i.operandBytes) = .next t' ∧ t = record t'))) ∨
    (∃ row e bank opcode, lookup s.table bank opcode = some row ∧ row.effect = .written e ∧
      decodeWith s.table s.window = .error (.otherEffect bank opcode) ∧ t = record (runEffect e [] s.atEffect)) ∨
    (∃ bank opcode, decodeWith s.table s.window = .error (.unassigned bank opcode) ∧
      t = s.atEffect.raise (.unimplementedOpcode bank opcode)) := by
  rcases lookupEntry_cases s with ⟨row, i, rest, hm, he, hr, hd⟩ | ⟨row, e, bank, opcode, hm, he, hr, hd⟩ |
    ⟨bank, opcode, hr, hd⟩
  · refine .inl ⟨_, rest, hd, ?_⟩
    have hb : ∀ addr, s.byteAt addr = s.atEffect.byteAt addr := fun _ => rfl
    simp only [step, hs, Option.isSome_none, Bool.false_eq_true, if_false, hr, he, execute_instr] at h
    simp only [ImmediateFails, operandBytes_withOperand]
    by_cases hf : ImmediateFails i s.atEffect
    · rw [if_pos hf] at h
      exact .inl ⟨hf, by simpa [finish, record] using h.symm⟩
    · rw [if_neg hf, ← hb, ← hb] at h
      obtain ⟨t', ht'⟩ := exec_next (i.withOperand (s.byteAt s.atEffect.pc) (s.byteAt (s.atEffect.pc + 1)))
        (s.atEffect.advancePc i.operandBytes)
      rw [ht'] at h
      exact .inr ⟨hf, t', ht', by simpa [finish] using h.symm⟩
  · refine .inr (.inl ⟨row, e, bank, opcode, hm, he, hd, ?_⟩)
    simp only [step, hs, Option.isSome_none, Bool.false_eq_true, if_false, hr, he, execute, finish,
      Host.Outcome.next.injEq] at h
    exact h.symm
  · refine .inr (.inr ⟨bank, opcode, hd, ?_⟩)
    simp only [step, hs, Option.isSome_none, Bool.false_eq_true, if_false, hr, Host.Outcome.next.injEq] at h
    exact h.symm

/-- A latched Machine is not changed (R109). -/
theorem step_latched {s : State} (h : s.fatal ≠ none) : step s = .next s := by
  cases hf : s.fatal with
  | none => exact absurd hf h
  | some f => simp [step, hf]

/-! ### The trace log -/

/-- Recording changes the log and the latch only (R181); it appends and counts (R183). -/
theorem traceRecord_cases (snap : Text) (s : State) :
    (traceRecord snap s = { s with trace := s.trace ++ [snap], count := s.count + 1 }) ∨
    (∃ entry, s.expectedNext = some entry ∧ snap ≠ entry ∧
      traceRecord snap s =
        { s with trace := s.trace ++ [snap], count := s.count + 1, fatal := some (.traceMismatch s.count entry snap) }) := by
  cases h : s.expectedNext with
  | none => exact .inl (by simp [traceRecord, h])
  | some entry =>
    by_cases hc : snap = entry
    · exact .inl (by simp [traceRecord, h, hc])
    · exact .inr ⟨entry, rfl, hc, by simp [traceRecord, h, hc, State.raise]⟩

@[simp] theorem hex4_length (v : Word) : (hex4 v).length = 4 := rfl

/-- A snapshot has 47 characters (R182). -/
@[simp] theorem snapshot_length (s : State) : (snapshot s).length = 47 := by simp [snapshot]

end Sys2Proof.Machine
end

