-- ==== Sys2Proof/Laws/Effect.lean ====
section
/-! SUPPORT. Written effects (spec/30_encoding.md R75): what one can and cannot change, and that every transformation of the register bank and
the memory can be written as one. -/

namespace Sys2Proof.Machine

/-! ### The outside of an effect -/

@[simp] theorem evalExpr_withOutside (slots : List Int) (s o : State) (e : EffectExpr) :
    evalExpr slots (s.withOutside o) e = evalExpr slots s e := by
  induction e with
  | reg r => cases r <;> rfl
  | pair p => cases p <;> rfl
  | const | slot | sp | pc | flag => rfl
  | add _ _ h1 h2 | sub _ _ h1 h2 | mul _ _ h1 h2 | div _ _ h1 h2 | mod _ _ h1 h2 | and _ _ h1 h2 | or _ _ h1 h2
  | xor _ _ h1 h2 | lt _ _ h1 h2 | eq _ _ h1 h2 => simp only [evalExpr, h1, h2]

/-- One operation neither reads nor writes the outside. -/
theorem runOp_withOutside (slots : List Int) (s o : State) (op : EffectOp) :
    runOp slots (s.withOutside o) op = (runOp slots s op).map fun p => (p.1, p.2.withOutside o) := by
  cases op with
  | imm16 =>
    simp only [runOp, imm16]
    rw [show readWord (s.withOutside o).mem (s.withOutside o).pc.toNat = readWord s.mem s.pc.toNat from rfl]
    cases readWord s.mem s.pc.toNat <;> rfl
  | imm8 =>
    simp only [runOp, imm8]
    rw [show readByte (s.withOutside o).mem (s.withOutside o).pc.toNat = readByte s.mem s.pc.toNat from rfl]
    cases readByte s.mem s.pc.toNat <;> rfl
  | readByte addr =>
    simp only [runOp, evalExpr_withOutside]
    rw [show (s.withOutside o).mem = s.mem from rfl]
    cases readByte s.mem (evalExpr slots s addr) <;> rfl
  | readWord addr =>
    simp only [runOp, evalExpr_withOutside]
    rw [show (s.withOutside o).mem = s.mem from rfl]
    cases readWord s.mem (evalExpr slots s addr) <;> rfl
  | writeByte addr v =>
    simp only [runOp, evalExpr_withOutside]
    rw [show (s.withOutside o).mem = s.mem from rfl]
    cases writeByte s.mem (evalExpr slots s addr) (.ofInt 8 (evalExpr slots s v)) <;> rfl
  | writeWord addr v =>
    simp only [runOp, evalExpr_withOutside]
    rw [show (s.withOutside o).mem = s.mem from rfl]
    cases writeWord s.mem (evalExpr slots s addr) (.ofInt 16 (evalExpr slots s v)) <;> rfl
  | setReg r v => simp only [runOp, evalExpr_withOutside]; cases r <;> rfl
  | setPair p v => simp only [runOp, evalExpr_withOutside]; cases p <;> rfl
  | bind | setSp | setPc | setFlag => simp only [runOp, evalExpr_withOutside]; rfl

/-! ### What an operation keeps -/

theorem maskF_low (v : Byte) : maskF v &&& 0x0F#8 = 0#8 := by
  rw [maskF, BitVec.and_assoc]; simp

theorem writeReg_low {s : State} (h : s.f &&& 0x0F#8 = 0#8) (r : Reg8) (v : Byte) : (s.writeReg r v).f &&& 0x0F#8 = 0#8 := by
  cases r <;> first | exact h | exact maskF_low v

theorem setFlag_low (s : State) (fl : Flag) (b : Bool) : (s.setFlag fl b).f &&& 0x0F#8 = 0#8 := by
  have : ∀ x : Byte, ((x &&& (0xF0#8 &&& ~~~flagMask fl)) ||| (if b then flagMask fl else 0#8)) &&& 0x0F#8 = 0#8 := by
    cases fl <;> cases b <;> decide
  exact this s.f

/-- An operation keeps F's low nibble and the canonical form (R13, R40). -/
theorem runOp_keeps {slots : List Int} {s : State} (op : EffectOp) (hf : s.f &&& 0x0F#8 = 0#8) (hm : Memory.wf s.mem = true) :
    match runOp slots s op with
    | .ok p => p.2.f &&& 0x0F#8 = 0#8 ∧ Memory.wf p.2.mem = true
    | .error _ => True := by
  cases op with
  | bind e => exact ⟨hf, hm⟩
  | imm8 => simp only [runOp, imm8_eq]; exact ⟨hf, hm⟩
  | imm16 =>
    simp only [runOp, imm16_eq]
    by_cases hp : s.pc = 0xFFFF#16
    · simp only [if_pos hp]
    · simp only [if_neg hp]; exact ⟨hf, hm⟩
  | readByte addr =>
    simp only [runOp]
    cases readByte s.mem (evalExpr slots s addr) with
    | error => exact trivial
    | ok => exact ⟨hf, hm⟩
  | readWord addr =>
    simp only [runOp]
    cases readWord s.mem (evalExpr slots s addr) with
    | error => exact trivial
    | ok => exact ⟨hf, hm⟩
  | writeByte addr v =>
    simp only [runOp]
    cases h : writeByte s.mem (evalExpr slots s addr) (.ofInt 8 (evalExpr slots s v)) with
    | error => exact trivial
    | ok m => exact ⟨hf, writeByte_wf hm h⟩
  | writeWord addr v =>
    simp only [runOp]
    cases h : writeWord s.mem (evalExpr slots s addr) (.ofInt 16 (evalExpr slots s v)) with
    | error => exact trivial
    | ok m => exact ⟨hf, writeWord_wf hm h⟩
  | setReg r v => exact ⟨writeReg_low hf r _, by simpa using hm⟩
  | setPair p v => exact ⟨writeReg_low (writeReg_low hf _ _) _ _, by simpa using hm⟩
  | setSp v => exact ⟨hf, hm⟩
  | setPc v => exact ⟨hf, hm⟩
  | setFlag fl v => exact ⟨setFlag_low s fl _, hm⟩

theorem runOp_fatal {slots slots' : List Int} {s s' : State} {op : EffectOp} (h : runOp slots s op = .ok (slots', s')) :
    s'.fatal = s.fatal := by
  have read : ∀ r : Except Fault Int, bindResult slots s r = .ok (slots', s') → s'.fatal = s.fatal := fun r h => by
    cases r <;> cases h; rfl
  have store : ∀ r : Except Fault Memory, storeResult slots s r = .ok (slots', s') → s'.fatal = s.fatal := fun r h => by
    cases r <;> cases h; rfl
  cases op with
  | imm8 => simp only [runOp, imm8_eq, Except.ok.injEq, Prod.mk.injEq] at h; rw [← h.2]; rfl
  | imm16 =>
    simp only [runOp, imm16_eq] at h
    by_cases hp : s.pc = 0xFFFF#16
    · simp only [if_pos hp] at h; cases h
    · simp only [if_neg hp] at h; cases h; rfl
  | readByte addr => exact read _ h
  | readWord addr => exact read _ h
  | writeByte addr v => exact store _ h
  | writeWord addr v => exact store _ h
  | setReg r v => cases h; simp
  | setPair p v => cases h; simp
  | bind | setSp | setPc | setFlag => cases h; rfl

/-- The fatals an effect can raise: the refusal of a byte or word access (R44 to R47). -/
def RefusedAccess (fault : Fault) : Prop :=
  ∃ addr size, fault = .outOfBounds addr size ∧ (size = 1 ∨ size = 2) ∧ (addr < 0 ∨ 65536 < addr + size)

theorem refusedAccess_of_inBounds {addr : Int} {size : Nat} (hs : size = 1 ∨ size = 2) (h : inBounds addr size ≠ true) :
    RefusedAccess (.outOfBounds addr size) :=
  ⟨addr, size, rfl, hs, by rw [Ne, inBounds_iff] at h; omega⟩

/-- An operation's fatal is the refusal of a byte or word access (R75, R48). -/
theorem runOp_error {slots : List Int} {s : State} {op : EffectOp} {fault : Fault} (h : runOp slots s op = .error fault) :
    RefusedAccess fault := by
  cases op with
  | imm8 => simp [runOp] at h
  | imm16 =>
    simp only [runOp, imm16_eq] at h
    by_cases hp : s.pc = 0xFFFF#16
    · simp only [if_pos hp] at h; cases h; exact ⟨_, _, rfl, .inr rfl, by omega⟩
    · simp only [if_neg hp] at h; cases h
  | readByte addr =>
    simp only [runOp, readByte] at h
    by_cases hb : inBounds (evalExpr slots s addr) 1 = true
    · rw [if_pos hb] at h; cases h
    · rw [if_neg hb] at h; cases h; exact refusedAccess_of_inBounds (.inl rfl) hb
  | readWord addr =>
    simp only [runOp, readWord] at h
    by_cases hb : inBounds (evalExpr slots s addr) 2 = true
    · rw [if_pos hb] at h; cases h
    · rw [if_neg hb] at h; cases h; exact refusedAccess_of_inBounds (.inr rfl) hb
  | writeByte addr v =>
    simp only [runOp, writeByte] at h
    by_cases hb : inBounds (evalExpr slots s addr) 1 = true
    · rw [if_pos hb] at h; cases h
    · rw [if_neg hb] at h; cases h; exact refusedAccess_of_inBounds (.inl rfl) hb
  | writeWord addr v =>
    simp only [runOp, writeWord] at h
    by_cases hb : inBounds (evalExpr slots s addr) 2 = true
    · rw [if_pos hb] at h; cases h
    · rw [if_neg hb] at h; cases h; exact refusedAccess_of_inBounds (.inr rfl) hb
  | bind | setReg | setPair | setSp | setPc | setFlag => cases h

/-- An effect leaves the latch alone or sets it to the refusal of a byte or word access. -/
theorem runEffect_fatal (e : Effect) (slots : List Int) (s : State) :
    (runEffect e slots s).fatal = s.fatal ∨ ∃ fault, (runEffect e slots s).fatal = some fault ∧ RefusedAccess fault := by
  induction e generalizing slots s with
  | done => exact .inl rfl
  | andThen op next ih =>
    cases h : runOp slots s op with
    | error fault =>
      exact .inr ⟨fault, by simp [runEffect, h], runOp_error h⟩
    | ok p =>
      have hf := runOp_fatal (slots' := p.1) (s' := p.2) h
      have hr : runEffect (.andThen op next) slots s = runEffect next p.1 p.2 := by simp [runEffect, h]
      rw [hr, ← hf]
      exact ih p.1 p.2
  | branch cond yes no ihy ihn =>
    by_cases hc : evalExpr slots s cond = 0
    · simpa only [runEffect, if_pos hc] using ihn slots s
    · simpa only [runEffect, if_neg hc] using ihy slots s

/-- An operation leaves the log and the run parameters alone (R75). -/
theorem runOp_outer {slots slots' : List Int} {s s' : State} {op : EffectOp} (h : runOp slots s op = .ok (slots', s')) :
    s'.withOutside s = s' := by
  have := runOp_withOutside slots s s op
  rw [show s.withOutside s = s from rfl, h] at this
  simp only [Except.map, Except.ok.injEq, Prod.mk.injEq, true_and] at this
  exact this.symm

/-- An effect leaves the log and the run parameters alone (R75). -/
theorem runEffect_outer (e : Effect) (slots : List Int) (s : State) :
    (runEffect e slots s).trace = s.trace ∧ (runEffect e slots s).count = s.count ∧
    (runEffect e slots s).started = s.started ∧ (runEffect e slots s).table = s.table ∧
    (runEffect e slots s).expected = s.expected := by
  induction e generalizing slots s with
  | done => exact ⟨rfl, rfl, rfl, rfl, rfl⟩
  | andThen op next ih =>
    cases h : runOp slots s op with
    | error fault => simp [runEffect, h]
    | ok p =>
      have ho := runOp_outer (slots' := p.1) (s' := p.2) h
      have hr : runEffect (.andThen op next) slots s = runEffect next p.1 p.2 := by simp [runEffect, h]
      obtain ⟨h1, h2, h3, h4, h5⟩ := ih p.1 p.2
      rw [hr, h1, h2, h3, h4, h5, ← ho]
      exact ⟨rfl, rfl, rfl, rfl, rfl⟩
  | branch cond yes no ihy ihn =>
    by_cases hc : evalExpr slots s cond = 0
    · simpa only [runEffect, if_pos hc] using ihn slots s
    · simpa only [runEffect, if_neg hc] using ihy slots s

/-- An effect keeps F's low nibble and the canonical form (R13, R40). -/
theorem runEffect_keeps (e : Effect) (slots : List Int) {s : State} (hf : s.f &&& 0x0F#8 = 0#8)
    (hm : Memory.wf s.mem = true) :
    (runEffect e slots s).f &&& 0x0F#8 = 0#8 ∧ Memory.wf (runEffect e slots s).mem = true := by
  induction e generalizing slots s with
  | done => exact ⟨hf, hm⟩
  | andThen op next ih =>
    have hk := runOp_keeps (slots := slots) op hf hm
    cases h : runOp slots s op with
    | error fault => simpa [runEffect, h] using ⟨hf, hm⟩
    | ok p =>
      rw [h] at hk
      have hr : runEffect (.andThen op next) slots s = runEffect next p.1 p.2 := by simp [runEffect, h]
      rw [hr]
      exact ih p.1 hk.1 hk.2
  | branch cond yes no ihy ihn =>
    by_cases hc : evalExpr slots s cond = 0
    · simpa only [runEffect, if_pos hc] using ihn slots hf hm
    · simpa only [runEffect, if_neg hc] using ihy slots hf hm

/-! ### Every transformation is an effect -/

/-- The register bank and the memory as the spec gives them: eight bytes, two words, 65536 bytes (R10, R16, R40). -/
structure BankMemory where
  regs  : Reg8 → Byte
  sp    : Word
  pc    : Word
  bytes : Fin Config.memSize → Byte

/-- The bank and the memory of a state. -/
def State.view (s : State) : BankMemory :=
  { regs := s.readReg, sp := s.sp, pc := s.pc, bytes := fun a => Memory.peek s.mem a.val }

/-- The latch after an effect that finishes, or raises `OutOfBounds`. -/
def latched : Option (Int × Nat) → Option Fault → Option Fault
  | none, latch => latch
  | some (addr, size), _ => some (.outOfBounds addr size)

/-- The first `n` values tested one after another, the last first. -/
def choose (x : EffectExpr) (g : Nat → Effect) : Nat → Effect
  | 0 => .done
  | n + 1 => .branch (.eq x (.const n)) (g n) (choose x g n)

theorem runEffect_choose {slots : List Int} {s : State} {x : EffectExpr} {g : Nat → Effect} {k n : Nat} (hk : k < n)
    (hx : evalExpr slots s x = k) : runEffect (choose x g n) slots s = runEffect (g k) slots s := by
  induction n with
  | zero => omega
  | succ n ih =>
    by_cases hn : k = n
    · subst hn
      simp [choose, runEffect, evalExpr, hx, truth]
    · have hne : ((k : Int) = (n : Int)) = False := by simp; omega
      have := ih (by omega)
      simpa [choose, runEffect, evalExpr, hx, truth, hne] using this

/-- A transformation is written, on the states of `C`: one effect makes the bank and the memory what `T` says and raises what `T`
says, whatever the slots. -/
def Writable (T : BankMemory → BankMemory × Option (Int × Nat)) (C : State → Prop) : Prop :=
  ∃ e, ∀ slots s, C s → Memory.wf s.mem = true →
    (runEffect e slots s).view = (T s.view).1 ∧
    (runEffect e slots s).fatal = latched (T s.view).2 s.fatal

/-- A value below `n` that the registers give: one effect for each is enough. -/
theorem Writable.byExpr {T : BankMemory → BankMemory × Option (Int × Nat)} {C : State → Prop} (x : EffectExpr) (n : Nat)
    (val : State → Nat) (hv : ∀ slots s, evalExpr slots s x = val s) (hn : ∀ s, val s < n)
    (h : ∀ k, k < n → Writable T fun s => C s ∧ val s = k) : Writable T C := by
  have h' : ∀ k, ∃ e, k < n → ∀ slots s, (C s ∧ val s = k) → Memory.wf s.mem = true →
      (runEffect e slots s).view = (T s.view).1 ∧
      (runEffect e slots s).fatal = latched (T s.view).2 s.fatal := fun k => by
    by_cases hk : k < n
    · exact (h k hk).imp fun e he _ => he
    · exact ⟨.done, fun hk' => absurd hk' hk⟩
  obtain ⟨g, hg⟩ := Classical.axiomOfChoice h'
  refine ⟨choose x g n, fun slots s hc hm => ?_⟩
  rw [runEffect_choose (hn s) (hv slots s)]
  exact hg (val s) (hn s) slots s ⟨hc, rfl⟩ hm

/-- One byte of memory: one effect for each value is enough. -/
theorem Writable.byByte {T : BankMemory → BankMemory × Option (Int × Nat)} {C : State → Prop} (a : Fin Config.memSize)
    (h : ∀ v : Byte, Writable T fun s => C s ∧ Memory.peek s.mem a.val = v) : Writable T C := by
  obtain ⟨g, hg⟩ := Classical.axiomOfChoice h
  refine ⟨.andThen (.readByte (.const a.val)) (choose (.slot 0) (fun k => g (BitVec.ofNat 8 k)) 256), fun slots s hc hm => ?_⟩
  have hb : inBounds (a.val : Int) 1 = true := (inBounds_iff _ _).2 (by have := a.isLt; simp only [memSize_eq] at this; omega)
  have hrun : runOp slots s (.readByte (.const a.val)) = .ok (((Memory.peek s.mem a.val).toNat : Int) :: slots, s) := by
    simp only [runOp, evalExpr, readByte, hb, if_true]
    rfl
  have hk : (Memory.peek s.mem a.val).toNat < 256 := (Memory.peek s.mem a.val).isLt
  simp only [runEffect, hrun]
  rw [runEffect_choose (k := (Memory.peek s.mem a.val).toNat) hk rfl, BitVec.ofNat_toNat, BitVec.setWidth_eq]
  exact hg _ _ s ⟨hc, rfl⟩ hm

/-- Some bytes of memory: one effect for each filling is enough. -/
theorem Writable.byBytes {T : BankMemory → BankMemory × Option (Int × Nat)} (addrs : List (Fin Config.memSize)) :
    ∀ {C : State → Prop},
      (∀ g : Fin Config.memSize → Byte, Writable T fun s => C s ∧ ∀ a ∈ addrs, Memory.peek s.mem a.val = g a) →
      Writable T C := by
  induction addrs with
  | nil => exact fun h => (h fun _ => 0).imp fun e he slots s hc hm => he slots s ⟨hc, by simp⟩ hm
  | cons a addrs ih =>
    intro C h
    refine Writable.byByte a fun v => ih fun g => ?_
    refine (h fun x => if x = a then v else g x).imp fun e he slots s hc hm => he slots s ⟨hc.1.1, fun x hx => ?_⟩ hm
    by_cases hxa : x = a
    · rw [if_pos hxa, hxa, hc.1.2]
    · rw [if_neg hxa]
      exact hc.2 x ((List.mem_cons.1 hx).resolve_left hxa)

/-- The bytes at the listed addresses written one after another, and then `tail`. -/
def writeBytes (g : Fin Config.memSize → Byte) (tail : Effect) : List (Fin Config.memSize) → Effect
  | [] => tail
  | a :: addrs => .andThen (.writeByte (.const a.val) (.const (g a).toNat)) (writeBytes g tail addrs)

/-- The bank and memory written out as constants, and then `tail`. -/
def writeOut (b : BankMemory) (tail : Effect) : Effect :=
  writeBytes b.bytes
    (.andThen (.setReg .a (.const (b.regs .a).toNat)) <| .andThen (.setReg .b (.const (b.regs .b).toNat)) <|
     .andThen (.setReg .c (.const (b.regs .c).toNat)) <| .andThen (.setReg .d (.const (b.regs .d).toNat)) <|
     .andThen (.setReg .e (.const (b.regs .e).toNat)) <| .andThen (.setReg .f (.const (b.regs .f).toNat)) <|
     .andThen (.setReg .h (.const (b.regs .h).toNat)) <| .andThen (.setReg .l (.const (b.regs .l).toNat)) <|
     .andThen (.setSp (.const b.sp.toNat)) <| .andThen (.setPc (.const b.pc.toNat)) tail)
    (List.finRange Config.memSize)

/-- An effect that finishes, or raises the `OutOfBounds` of a byte read or of a word read. -/
def finishOrRaise : Option (Int × Nat) → Effect
  | none => .done
  | some (addr, size) => .andThen (if size = 1 then .readByte (.const addr) else .readWord (.const addr)) .done

theorem maskF_of_low {v : Byte} (h : v &&& 0x0F#8 = 0#8) : maskF v = v := by
  have : ∀ x : Byte, x &&& 0x0F#8 = 0#8 → maskF x = x := by decide
  exact this v h

theorem ofInt_toNat {w : Nat} (v : BitVec w) : BitVec.ofInt w (v.toNat : Int) = v := by
  rw [BitVec.ofInt_natCast, BitVec.ofNat_toNat, BitVec.setWidth_eq]

theorem runEffect_writeBytes (g : Fin Config.memSize → Byte) (tail : Effect) (slots : List Int)
    (addrs : List (Fin Config.memSize)) (s : State) (hm : Memory.wf s.mem = true) :
    ∃ m, runEffect (writeBytes g tail addrs) slots s = runEffect tail slots { s with mem := m } ∧
      ∀ a : Fin Config.memSize, Memory.peek m a.val = if a ∈ addrs then g a else Memory.peek s.mem a.val := by
  induction addrs generalizing s with
  | nil => exact ⟨s.mem, rfl, fun a => by simp⟩
  | cons a addrs ih =>
    have ha : a.val < 65536 := a.isLt
    have hb : inBounds (a.val : Int) 1 = true := (inBounds_iff _ _).2 (by omega)
    have hrun : runOp slots s (.writeByte (.const a.val) (.const (g a).toNat)) =
        .ok (slots, { s with mem := Memory.poke s.mem a.val (g a) }) := by
      simp only [runOp, evalExpr, writeByte, hb, if_true, ofInt_toNat]
      rfl
    obtain ⟨m, hr, hp⟩ := ih { s with mem := Memory.poke s.mem a.val (g a) } (poke_wf hm ha _)
    refine ⟨m, by simp only [writeBytes, runEffect, hrun]; exact hr, fun x => ?_⟩
    rw [hp, peek_poke hm]
    by_cases hx : x = a
    · simp [hx]
    · have : x.val ≠ a.val := fun h => hx (Fin.ext h)
      simp [hx, this]

theorem runEffect_writeOut (b : BankMemory) (tail : Effect) (hf : b.regs .f &&& 0x0F#8 = 0#8) (slots : List Int) (s : State)
    (hm : Memory.wf s.mem = true) :
    ∃ t, runEffect (writeOut b tail) slots s = runEffect tail slots t ∧ t.view = b ∧ t.fatal = s.fatal := by
  rw [writeOut]
  obtain ⟨m, hrun, hpeek⟩ := runEffect_writeBytes b.bytes _ slots (List.finRange Config.memSize) s hm
  have hview : ∀ t : State, t.mem = m → t.a = b.regs .a → t.b = b.regs .b → t.c = b.regs .c →
      t.d = b.regs .d → t.e = b.regs .e → t.f = b.regs .f → t.h = b.regs .h → t.l = b.regs .l → t.sp = b.sp →
      t.pc = b.pc → t.view = b := by
    intro t h0 h1 h2 h3 h4 h5 h6 h7 h8 h9 h10
    have hr : t.readReg = b.regs := funext fun r => by cases r <;> assumption
    have hbs : (fun a : Fin Config.memSize => Memory.peek t.mem a.val) = b.bytes :=
      funext fun a => by rw [h0, hpeek, if_pos (List.mem_finRange a)]
    rw [State.view, hr, hbs, h9, h10]
  have hfm : maskF (BitVec.ofInt 8 ((b.regs .f).toNat : Int)) = b.regs .f := by rw [ofInt_toNat, maskF_of_low hf]
  rw [hrun]
  simp only [runEffect, runOp]
  exact ⟨_, rfl, hview _ rfl (ofInt_toNat _) (ofInt_toNat _) (ofInt_toNat _)
    (ofInt_toNat _) (ofInt_toNat _) hfm (ofInt_toNat _) (ofInt_toNat _) (ofInt_toNat _) (ofInt_toNat _), rfl⟩

theorem runEffect_finishOrRaise (fault : Option (Int × Nat))
    (hb : ∀ addr size, fault = some (addr, size) → (size = 1 ∨ size = 2) ∧ inBounds addr size = false)
    (slots : List Int) (s : State) :
    (runEffect (finishOrRaise fault) slots s).view = s.view ∧
    (runEffect (finishOrRaise fault) slots s).fatal = latched fault s.fatal := by
  cases fault with
  | none => exact ⟨rfl, rfl⟩
  | some q =>
    obtain ⟨addr, size⟩ := q
    obtain ⟨hs, hout⟩ := hb addr size rfl
    have hfail : runOp slots s (if size = 1 then .readByte (.const addr) else .readWord (.const addr)) =
        .error (.outOfBounds addr size) := by
      rcases hs with rfl | rfl
      · simp only [if_true, runOp, evalExpr, readByte, hout]; rfl
      · simp only [OfNat.ofNat_ne_one, if_false, runOp, evalExpr, readWord, hout]; rfl
    simp only [finishOrRaise, runEffect, hfail]
    exact ⟨rfl, rfl⟩

/-- Every transformation of the register bank and the 65536 bytes, finishing or raising the `OutOfBounds` of a byte or word access, is a
written effect (R75, R201, D6): the language of effects restricts the tables of the model to nothing less than the spec's.
`load`, whose `OutOfBounds` can have another size, is issued by no instruction (R48). -/
theorem every_transformation_is_an_effect (T : BankMemory → BankMemory × Option (Int × Nat))
    (low : ∀ b, (T b).1.regs .f &&& 0x0F#8 = 0#8)
    (outside : ∀ b addr size, (T b).2 = some (addr, size) → (size = 1 ∨ size = 2) ∧ inBounds addr size = false) :
    ∃ e, ∀ s, Memory.wf s.mem = true →
      (runEffect e [] s).view = (T s.view).1 ∧
      (runEffect e [] s).fatal = latched (T s.view).2 s.fatal := by
  have all : Writable T fun _ => True := by
    have reg : ∀ (r : Reg8) {C : State → Prop},
        (∀ k, k < 256 → Writable T fun s => C s ∧ (s.readReg r).toNat = k) → Writable T C := fun r {C} h =>
      Writable.byExpr (.reg r) 256 (fun s => (s.readReg r).toNat) (fun _ _ => rfl) (fun s => (s.readReg r).isLt) h
    refine reg .a fun a _ => reg .b fun b _ => reg .c fun c _ => reg .d fun d _ => reg .e fun e _ => reg .f fun f _ =>
      reg .h fun h _ => reg .l fun l _ => ?_
    refine Writable.byExpr .sp 65536 (fun s => s.sp.toNat) (fun _ _ => rfl) (fun s => s.sp.isLt) fun sp _ => ?_
    refine Writable.byExpr .pc 65536 (fun s => s.pc.toNat) (fun _ _ => rfl) (fun s => s.pc.isLt) fun pc _ => ?_
    refine Writable.byBytes (List.finRange Config.memSize) fun g => ?_
    let regs : Reg8 → Byte := fun r => BitVec.ofNat 8 (match r with
      | .a => a | .b => b | .c => c | .d => d | .e => e | .f => f | .h => h | .l => l)
    let v : BankMemory := { regs := regs, sp := BitVec.ofNat 16 sp, pc := BitVec.ofNat 16 pc, bytes := g }
    refine ⟨writeOut (T v).1 (finishOrRaise (T v).2), fun slots s hc hm => ?_⟩
    obtain ⟨⟨⟨⟨⟨⟨⟨⟨⟨⟨⟨-, ha⟩, hb⟩, hc⟩, hd⟩, he⟩, hf⟩, hh⟩, hl⟩, hsp⟩, hpc⟩, hg⟩ := hc
    have hs : s.view = v := by
      have hr : s.readReg = regs := funext fun r => by
        cases r <;> simp only [regs, ← ha, ← hb, ← hc, ← hd, ← he, ← hf, ← hh, ← hl, BitVec.ofNat_toNat, BitVec.setWidth_eq]
      have hbs : (fun x : Fin Config.memSize => Memory.peek s.mem x.val) = g :=
        funext fun x => hg x (List.mem_finRange x)
      simp only [State.view, v, hr, hbs, ← hsp, ← hpc, BitVec.ofNat_toNat, BitVec.setWidth_eq]
    rw [hs]
    obtain ⟨t, hrun, hview, hfatal⟩ := runEffect_writeOut (T v).1 (finishOrRaise (T v).2) (low v) slots s hm
    rw [hrun, ← hview, ← hfatal]
    exact runEffect_finishOrRaise _ (fun addr size => outside v addr size) slots t
  exact all.imp fun e he s hm => he [] s trivial hm

end Sys2Proof.Machine
end

