-- ==== Sys2Proof/Laws/Exec.lean ====
section
/-! SUPPORT. What each instruction can answer, once for all 74: later proofs cite it instead of unfolding the meanings. -/

open Sys2Proof.Claims

namespace Sys2Proof.Machine

/-- Everything an instruction can do once its immediate is read: one of thirteen effects. -/
theorem exec_cases {i : Instr} {s t : State} (h : exec i s = .next t) :
    (∃ nn, i = .ldBcNn nn ∧ t = s.writePair .bc nn) ∨
    (∃ nn, i = .ldDeNn nn ∧ t = s.writePair .de nn) ∨
    (∃ nn, i = .ldHlNn nn ∧ t = s.writePair .hl nn) ∨
    (∃ nn, i = .ldSpNn nn ∧ t = { s with sp := nn }) ∨
    (∃ nn, i = .jpA16 nn ∧ t = { s with pc := nn }) ∨
    (∃ d, i = .jrNzR8 d ∧ t = if s.readFlag .z then s else { s with pc := s.pc + signExtend16 d }) ∨
    (i = .ldIndBcA ∧ t = { s with mem := Memory.poke s.mem (s.readPair .bc).toNat s.a }) ∨
    (i = .ldIndDeA ∧ t = { s with mem := Memory.poke s.mem (s.readPair .de).toNat s.a }) ∨
    (i = .ldIndHlIncA ∧ t = ({ s with mem := Memory.poke s.mem (s.readPair .hl).toNat s.a } : State).incHl) ∨
    (i = .ldIndHlDecA ∧ t = ({ s with mem := Memory.poke s.mem (s.readPair .hl).toNat s.a } : State).decHl) ∨
    (i = .nop ∧ t = s) ∨
    (∃ r, (i, operandReg r) ∈ xorForms ∧ t = xorEffect r s) ∨
    (∃ b r, (i, b.val, operandReg r) ∈ bitForms ∧ t = bitEffect b r s) := by
  cases i with
  | ldIndBcA => rw [exec, execLdIndBcA, storeAThroughPair, storeByte_eq] at h; cases h; simp [legacyStoreDecHl]
  | ldIndDeA => rw [exec, execLdIndDeA, storeAThroughPair, storeByte_eq] at h; cases h; simp [legacyStoreDecHl]
  | ldIndHlIncA => rw [exec, execLdIndHlIncA, storeByte_eq] at h; cases h; simp
  | ldIndHlDecA => rw [exec, execLdIndHlDecA, storeByte_eq] at h; cases h; simp
  | ldBcNn nn => cases h; exact .inl ⟨nn, rfl, rfl⟩
  | ldDeNn nn => cases h; exact .inr (.inl ⟨nn, rfl, rfl⟩)
  | ldHlNn nn => cases h; exact .inr (.inr (.inl ⟨nn, rfl, rfl⟩))
  | ldSpNn nn => cases h; exact .inr (.inr (.inr (.inl ⟨nn, rfl, rfl⟩)))
  | jpA16 nn => cases h; exact .inr (.inr (.inr (.inr (.inl ⟨nn, rfl, rfl⟩))))
  | jrNzR8 d => cases h; exact .inr (.inr (.inr (.inr (.inr (.inl ⟨d, rfl, rfl⟩)))))
  | nop => cases h; simp
  | xorA | xorB | xorC | xorD | xorE | xorH | xorL =>
    cases h; iterate 11 right
    left; exact ⟨_, by decide, rfl⟩
  | _ =>
    cases h; iterate 12 right
    exact ⟨_, _, by decide, rfl⟩

/-- An instruction leaves the log, the latch and the run parameters alone (R75). -/
theorem exec_outer {i : Instr} {s t : State} (h : exec i s = .next t) :
    t.trace = s.trace ∧ t.count = s.count ∧ t.fatal = s.fatal ∧ t.started = s.started ∧ t.table = s.table ∧
      t.expected = s.expected := by
  rcases exec_cases h with ⟨nn, rfl, rfl⟩ | ⟨nn, rfl, rfl⟩ | ⟨nn, rfl, rfl⟩ | ⟨nn, rfl, rfl⟩ | ⟨nn, rfl, rfl⟩ |
    ⟨d, rfl, rfl⟩ | ⟨rfl, rfl⟩ | ⟨rfl, rfl⟩ | ⟨rfl, rfl⟩ | ⟨rfl, rfl⟩ | ⟨rfl, rfl⟩ | ⟨r, hi, rfl⟩ | ⟨b, r, hi, rfl⟩
  all_goals first | exact ⟨rfl, rfl, rfl, rfl, rfl, rfl⟩ | (split <;> exact ⟨rfl, rfl, rfl, rfl, rfl, rfl⟩)

/-- An instruction keeps F's low nibble and the canonical form (R13, R40). -/
theorem exec_keeps {i : Instr} {s t : State} (h : exec i s = .next t) (hf : s.f &&& 0x0F#8 = 0#8)
    (hm : Memory.wf s.mem = true) : t.f &&& 0x0F#8 = 0#8 ∧ Memory.wf t.mem = true := by
  rcases exec_cases h with ⟨nn, rfl, rfl⟩ | ⟨nn, rfl, rfl⟩ | ⟨nn, rfl, rfl⟩ | ⟨nn, rfl, rfl⟩ | ⟨nn, rfl, rfl⟩ |
    ⟨d, rfl, rfl⟩ | ⟨rfl, rfl⟩ | ⟨rfl, rfl⟩ | ⟨rfl, rfl⟩ | ⟨rfl, rfl⟩ | ⟨rfl, rfl⟩ | ⟨r, hi, rfl⟩ | ⟨b, r, hi, rfl⟩
  case inr.inr.inr.inr.inr.inr.inr.inr.inr.inr.inr.inl => exact ⟨setFlag_low _ _ _, hm⟩
  case inr.inr.inr.inr.inr.inr.inr.inr.inr.inr.inr.inr => exact ⟨setFlag_low _ _ _, hm⟩
  all_goals first
    | exact ⟨hf, hm⟩
    | exact ⟨hf, poke_wf hm (BitVec.isLt _) _⟩
    | (split <;> exact ⟨hf, hm⟩)

end Sys2Proof.Machine
end

