-- ==== Sys2Proof/Laws/PerInstr.lean ====
section
/-! SUPPORT. Facts made per instruction. `EncodeLength`: an instruction's bytes are as many as its length says (spec/30_encoding.md R71). -/

namespace Sys2Proof.Laws.EncodeLength

/-- The encoding of the instruction has as many bytes as its length, between one and three. -/
def Statement (i : Instr) : Prop := (encode i).length = i.length ∧ 1 ≤ i.length ∧ i.length ≤ 3

theorem nop : Statement .nop := ⟨rfl, by decide, by decide⟩
theorem ldBcNn (nn : Word) : Statement (.ldBcNn nn) := ⟨rfl, Nat.le_of_ble_eq_true rfl, Nat.le_of_ble_eq_true rfl⟩
theorem ldIndBcA : Statement .ldIndBcA := ⟨rfl, by decide, by decide⟩
theorem ldDeNn (nn : Word) : Statement (.ldDeNn nn) := ⟨rfl, Nat.le_of_ble_eq_true rfl, Nat.le_of_ble_eq_true rfl⟩
theorem ldIndDeA : Statement .ldIndDeA := ⟨rfl, by decide, by decide⟩
theorem jrNzR8 (r8 : Byte) : Statement (.jrNzR8 r8) := ⟨rfl, Nat.le_of_ble_eq_true rfl, Nat.le_of_ble_eq_true rfl⟩
theorem ldHlNn (nn : Word) : Statement (.ldHlNn nn) := ⟨rfl, Nat.le_of_ble_eq_true rfl, Nat.le_of_ble_eq_true rfl⟩
theorem ldIndHlIncA : Statement .ldIndHlIncA := ⟨rfl, by decide, by decide⟩
theorem ldSpNn (nn : Word) : Statement (.ldSpNn nn) := ⟨rfl, Nat.le_of_ble_eq_true rfl, Nat.le_of_ble_eq_true rfl⟩
theorem ldIndHlDecA : Statement .ldIndHlDecA := ⟨rfl, by decide, by decide⟩
theorem xorB : Statement .xorB := ⟨rfl, by decide, by decide⟩
theorem xorC : Statement .xorC := ⟨rfl, by decide, by decide⟩
theorem xorD : Statement .xorD := ⟨rfl, by decide, by decide⟩
theorem xorE : Statement .xorE := ⟨rfl, by decide, by decide⟩
theorem xorH : Statement .xorH := ⟨rfl, by decide, by decide⟩
theorem xorL : Statement .xorL := ⟨rfl, by decide, by decide⟩
theorem xorA : Statement .xorA := ⟨rfl, by decide, by decide⟩
theorem jpA16 (a16 : Word) : Statement (.jpA16 a16) := ⟨rfl, Nat.le_of_ble_eq_true rfl, Nat.le_of_ble_eq_true rfl⟩
theorem bit0B : Statement .bit0B := ⟨rfl, by decide, by decide⟩
theorem bit0C : Statement .bit0C := ⟨rfl, by decide, by decide⟩
theorem bit0D : Statement .bit0D := ⟨rfl, by decide, by decide⟩
theorem bit0E : Statement .bit0E := ⟨rfl, by decide, by decide⟩
theorem bit0H : Statement .bit0H := ⟨rfl, by decide, by decide⟩
theorem bit0L : Statement .bit0L := ⟨rfl, by decide, by decide⟩
theorem bit0A : Statement .bit0A := ⟨rfl, by decide, by decide⟩
theorem bit1B : Statement .bit1B := ⟨rfl, by decide, by decide⟩
theorem bit1C : Statement .bit1C := ⟨rfl, by decide, by decide⟩
theorem bit1D : Statement .bit1D := ⟨rfl, by decide, by decide⟩
theorem bit1E : Statement .bit1E := ⟨rfl, by decide, by decide⟩
theorem bit1H : Statement .bit1H := ⟨rfl, by decide, by decide⟩
theorem bit1L : Statement .bit1L := ⟨rfl, by decide, by decide⟩
theorem bit1A : Statement .bit1A := ⟨rfl, by decide, by decide⟩
theorem bit2B : Statement .bit2B := ⟨rfl, by decide, by decide⟩
theorem bit2C : Statement .bit2C := ⟨rfl, by decide, by decide⟩
theorem bit2D : Statement .bit2D := ⟨rfl, by decide, by decide⟩
theorem bit2E : Statement .bit2E := ⟨rfl, by decide, by decide⟩
theorem bit2H : Statement .bit2H := ⟨rfl, by decide, by decide⟩
theorem bit2L : Statement .bit2L := ⟨rfl, by decide, by decide⟩
theorem bit2A : Statement .bit2A := ⟨rfl, by decide, by decide⟩
theorem bit3B : Statement .bit3B := ⟨rfl, by decide, by decide⟩
theorem bit3C : Statement .bit3C := ⟨rfl, by decide, by decide⟩
theorem bit3D : Statement .bit3D := ⟨rfl, by decide, by decide⟩
theorem bit3E : Statement .bit3E := ⟨rfl, by decide, by decide⟩
theorem bit3H : Statement .bit3H := ⟨rfl, by decide, by decide⟩
theorem bit3L : Statement .bit3L := ⟨rfl, by decide, by decide⟩
theorem bit3A : Statement .bit3A := ⟨rfl, by decide, by decide⟩
theorem bit4B : Statement .bit4B := ⟨rfl, by decide, by decide⟩
theorem bit4C : Statement .bit4C := ⟨rfl, by decide, by decide⟩
theorem bit4D : Statement .bit4D := ⟨rfl, by decide, by decide⟩
theorem bit4E : Statement .bit4E := ⟨rfl, by decide, by decide⟩
theorem bit4H : Statement .bit4H := ⟨rfl, by decide, by decide⟩
theorem bit4L : Statement .bit4L := ⟨rfl, by decide, by decide⟩
theorem bit4A : Statement .bit4A := ⟨rfl, by decide, by decide⟩
theorem bit5B : Statement .bit5B := ⟨rfl, by decide, by decide⟩
theorem bit5C : Statement .bit5C := ⟨rfl, by decide, by decide⟩
theorem bit5D : Statement .bit5D := ⟨rfl, by decide, by decide⟩
theorem bit5E : Statement .bit5E := ⟨rfl, by decide, by decide⟩
theorem bit5H : Statement .bit5H := ⟨rfl, by decide, by decide⟩
theorem bit5L : Statement .bit5L := ⟨rfl, by decide, by decide⟩
theorem bit5A : Statement .bit5A := ⟨rfl, by decide, by decide⟩
theorem bit6B : Statement .bit6B := ⟨rfl, by decide, by decide⟩
theorem bit6C : Statement .bit6C := ⟨rfl, by decide, by decide⟩
theorem bit6D : Statement .bit6D := ⟨rfl, by decide, by decide⟩
theorem bit6E : Statement .bit6E := ⟨rfl, by decide, by decide⟩
theorem bit6H : Statement .bit6H := ⟨rfl, by decide, by decide⟩
theorem bit6L : Statement .bit6L := ⟨rfl, by decide, by decide⟩
theorem bit6A : Statement .bit6A := ⟨rfl, by decide, by decide⟩
theorem bit7B : Statement .bit7B := ⟨rfl, by decide, by decide⟩
theorem bit7C : Statement .bit7C := ⟨rfl, by decide, by decide⟩
theorem bit7D : Statement .bit7D := ⟨rfl, by decide, by decide⟩
theorem bit7E : Statement .bit7E := ⟨rfl, by decide, by decide⟩
theorem bit7H : Statement .bit7H := ⟨rfl, by decide, by decide⟩
theorem bit7L : Statement .bit7L := ⟨rfl, by decide, by decide⟩
theorem bit7A : Statement .bit7A := ⟨rfl, by decide, by decide⟩

end Sys2Proof.Laws.EncodeLength
end

