-- ==== Sys2Proof/Tests/Slice0.lean ====
section
/-! SUPPORT. Tests: words written out from the spec's encodings, the vectors of spec/95_test_vectors.md (their ids in the names), and for
every statement with hypotheses a witness that meets them. Every expected value is the spec's. -/

open Sys2Proof Sys2Proof.Machine Sys2Proof.Claims

namespace Sys2Proof.Tests

/-! ### Helpers -/

/-- The reset state with `pc` set and bytes at `pc`. -/
def prog (pc : Word) (bytes : List Byte) : State := State.placeBytes { State.reset with pc := pc } pc bytes

/-- The state after one step. -/
def after (s : State) : State :=
  match step s with
  | .next t => t
  | .fault _ => s
  | .refused _ => s

/-- What one step records last, and the latch after it. -/
def shot (s : State) : Option Text × Option Fault := ((after s).trace.getLast?, (after s).fatal)

/-- A record of this text and no fatal. -/
def recordedAs (text : String) : Option Text × Option Fault := (some text.toList, none)

/-- Bytes that decode to an instruction, and are its encoding. -/
def isWord (bytes : List Byte) (i : Instr) : Bool :=
  decide (decode bytes = .ok (i, [])) && decide (encode i = bytes)

/-! ### Well-formed terms -/

theorem test_wellFormed_instr : (Instr.bit7H).wellFormed = true := by decide
theorem test_baseline_wellFormed : tableWellFormed baselineTable = true := by decide
theorem test_duplicate_key_refused :
    tableWellFormed [⟨.default, 0x00, "NOP", 4, .instr .nop⟩, ⟨.cb, 0x00, "X", 4, .instr .nop⟩,
      ⟨.default, 0x00, "Y", 4, .written .done⟩] = false := by
  decide

/-! ### Words of the opcode table, from spec/30_encoding.md R81, R82 and spec/opcode_table.json -/

theorem test_words_one_byte :
    [([0x00], .nop),
     ([0x02], .ldIndBcA),
     ([0x12], .ldIndDeA),
     ([0x22], .ldIndHlIncA),
     ([0x32], .ldIndHlDecA)].all (fun (p : List Byte × Instr) => isWord p.1 p.2) = true := by
  decide

theorem test_words_immediates :
    [([0x01, 0xCD, 0xAB], .ldBcNn 0xABCD),
     ([0x11, 0xCD, 0xAB], .ldDeNn 0xABCD),
     ([0x20, 0xFB], .jrNzR8 0xFB),
     ([0x21, 0xCD, 0xAB], .ldHlNn 0xABCD),
     ([0x31, 0xCD, 0xAB], .ldSpNn 0xABCD),
     ([0xC3, 0xCD, 0xAB], .jpA16 0xABCD)].all (fun (p : List Byte × Instr) => isWord p.1 p.2) = true := by
  decide

theorem test_words_xor :
    [([0xA8], .xorB),
     ([0xA9], .xorC),
     ([0xAA], .xorD),
     ([0xAB], .xorE),
     ([0xAC], .xorH),
     ([0xAD], .xorL),
     ([0xAF], .xorA)].all (fun (p : List Byte × Instr) => isWord p.1 p.2) = true := by
  decide

theorem test_words_bit_4 :
    [([0xCB, 0x40], .bit0B),
     ([0xCB, 0x41], .bit0C),
     ([0xCB, 0x42], .bit0D),
     ([0xCB, 0x43], .bit0E),
     ([0xCB, 0x44], .bit0H),
     ([0xCB, 0x45], .bit0L),
     ([0xCB, 0x47], .bit0A),
     ([0xCB, 0x48], .bit1B),
     ([0xCB, 0x49], .bit1C),
     ([0xCB, 0x4A], .bit1D),
     ([0xCB, 0x4B], .bit1E),
     ([0xCB, 0x4C], .bit1H),
     ([0xCB, 0x4D], .bit1L),
     ([0xCB, 0x4F], .bit1A)].all (fun (p : List Byte × Instr) => isWord p.1 p.2) = true := by
  decide

theorem test_words_bit_5 :
    [([0xCB, 0x50], .bit2B),
     ([0xCB, 0x51], .bit2C),
     ([0xCB, 0x52], .bit2D),
     ([0xCB, 0x53], .bit2E),
     ([0xCB, 0x54], .bit2H),
     ([0xCB, 0x55], .bit2L),
     ([0xCB, 0x57], .bit2A),
     ([0xCB, 0x58], .bit3B),
     ([0xCB, 0x59], .bit3C),
     ([0xCB, 0x5A], .bit3D),
     ([0xCB, 0x5B], .bit3E),
     ([0xCB, 0x5C], .bit3H),
     ([0xCB, 0x5D], .bit3L),
     ([0xCB, 0x5F], .bit3A)].all (fun (p : List Byte × Instr) => isWord p.1 p.2) = true := by
  decide

theorem test_words_bit_6 :
    [([0xCB, 0x60], .bit4B),
     ([0xCB, 0x61], .bit4C),
     ([0xCB, 0x62], .bit4D),
     ([0xCB, 0x63], .bit4E),
     ([0xCB, 0x64], .bit4H),
     ([0xCB, 0x65], .bit4L),
     ([0xCB, 0x67], .bit4A),
     ([0xCB, 0x68], .bit5B),
     ([0xCB, 0x69], .bit5C),
     ([0xCB, 0x6A], .bit5D),
     ([0xCB, 0x6B], .bit5E),
     ([0xCB, 0x6C], .bit5H),
     ([0xCB, 0x6D], .bit5L),
     ([0xCB, 0x6F], .bit5A)].all (fun (p : List Byte × Instr) => isWord p.1 p.2) = true := by
  decide

theorem test_words_bit_7 :
    [([0xCB, 0x70], .bit6B),
     ([0xCB, 0x71], .bit6C),
     ([0xCB, 0x72], .bit6D),
     ([0xCB, 0x73], .bit6E),
     ([0xCB, 0x74], .bit6H),
     ([0xCB, 0x75], .bit6L),
     ([0xCB, 0x77], .bit6A),
     ([0xCB, 0x78], .bit7B),
     ([0xCB, 0x79], .bit7C),
     ([0xCB, 0x7A], .bit7D),
     ([0xCB, 0x7B], .bit7E),
     ([0xCB, 0x7C], .bit7H),
     ([0xCB, 0x7D], .bit7L),
     ([0xCB, 0x7F], .bit7A)].all (fun (p : List Byte × Instr) => isWord p.1 p.2) = true := by
  decide

theorem test_xorH_bit_by_bit : decode [0b10101100] = .ok (.xorH, []) := by decide
theorem test_bit5E_bit_by_bit : decode [0b11001011, 0b01101011] = .ok (.bit5E, []) := by decide
theorem test_memory_operand_is_unassigned :
    decode [0xAE] = .error (.unassigned .default 0xAE) ∧ decode [0xCB, 0x46] = .error (.unassigned .cb 0x46) := by decide
theorem test_prefix_has_one_level :
    decode [0xDD, 0x00] = .error (.unassigned .dd 0x00) ∧ decode [0xCB, 0xCB] = .error (.unassigned .cb 0xCB) := by decide
theorem test_truncated : decode [0xC3, 0x50] = .error .truncated := by decide

/-- The numbers of spec/opcode_table.json: byte 0 on top; a word shorter than the instruction leaves zeros. -/
theorem test_table_words :
    decodeTableWord 8 0x32 = some .ldIndHlDecA ∧ decodeTableWord 16 0xCB7C = some .bit7H ∧
    decodeTableWord 16 0x20FB = some (.jrNzR8 0xFB) ∧ decodeTableWord 24 0x215634 = some (.ldHlNn 0x3456) ∧
    decodeTableWord 8 0xD3 = none := by decide

theorem test_withFetchWord_runs_the_word :
    shot (State.reset.withFetchWord 24 0x21FF9F) = recordedAs "AF=0000 BC=0000 DE=0000 HL=9FFF SP=0000 PC=0003" ∧
    shot (State.reset.withFetchWord 16 0xCB7C) = recordedAs "AF=00A0 BC=0000 DE=0000 HL=0000 SP=0000 PC=0002" := by decide

/-! ### Vectors of spec/95_test_vectors.md -/

theorem test_V3_af_masked : (State.reset.writePair .af 0xFFFF).readPair .af = 0xFFF0 := by decide
theorem test_V4_V5_flag_writes :
    (State.reset.setFlag .h true).f = 0x20 ∧ (({ State.reset with f := 0xF0 } : State).setFlag .z false).f = 0x70 := by decide
theorem test_V10_V14_load_at_the_top : (load [] [0x09] 65535).toOption.map (fun m => readWord m 0xFFFE) = some (.ok 0x0900) := by
  decide
theorem test_V11_load_overrun : load [] [0x09, 0x09] 65535 = .error (.outOfBounds 65535 2) := by decide
theorem test_V12_V13_empty_load : load [] [] 65536 = .ok [] ∧ load [] [] 65537 = .error (.outOfBounds 65537 0) := by decide
theorem test_V15_V16_reads_out_of_bounds :
    readWord [] 0xFFFF = .error (.outOfBounds 65535 2) ∧ readByte [] 65536 = .error (.outOfBounds 65536 1) := by decide
theorem test_V18_V19_writeWord :
    writeWord [] 0x0011 0xBEEF = .ok [(0x11, 0xEF), (0x12, 0xBE)] ∧
    writeWord [] 0xFFFF 0x1234 = .error (.outOfBounds 65535 2) := by decide
theorem test_write_zero_unlists : writeByte [(5, 0x07), (9, 0x01)] 5 0x00 = .ok [(9, 0x01)] := by decide

theorem test_V8_nop : shot State.reset = recordedAs "AF=0000 BC=0000 DE=0000 HL=0000 SP=0000 PC=0001" := by decide
theorem test_S6_entry_state : shot ((prog 0x0100 [0x00]).hostPreset (.pair .af 0x01B0) |>.hostPreset (.pair .bc 0x0013)
      |>.hostPreset (.pair .de 0x00D8) |>.hostPreset (.pair .hl 0x014D) |>.hostPreset (.sp 0xFFFE)) =
    recordedAs "AF=01B0 BC=0013 DE=00D8 HL=014D SP=FFFE PC=0101" := by decide
theorem test_S7_unresolved :
    after (prog 0 [0xD3]) = { prog 0 [0xD3] with pc := 1, fatal := some (.unimplementedOpcode .default 0xD3) } := by decide
theorem test_S8_mismatch :
    (after { State.reset with expected := some ["AF=FFFF BC=0000 DE=0000 HL=0000 SP=0000 PC=0000".toList] }).fatal =
      some (.traceMismatch 0 "AF=FFFF BC=0000 DE=0000 HL=0000 SP=0000 PC=0000".toList
        "AF=0000 BC=0000 DE=0000 HL=0000 SP=0000 PC=0001".toList) := by decide

theorem test_V20_ldBc : shot (prog 0 [0x01, 0x5A, 0xC0]) = recordedAs "AF=0000 BC=C05A DE=0000 HL=0000 SP=0000 PC=0003" := by
  decide
theorem test_V21_ldDe : shot (prog 0 [0x11, 0x00, 0xD0]) = recordedAs "AF=0000 BC=0000 DE=D000 HL=0000 SP=0000 PC=0003" := by
  decide
theorem test_V23_ldSp : shot (prog 0 [0x31, 0xFE, 0xFF]) = recordedAs "AF=0000 BC=0000 DE=0000 HL=0000 SP=FFFE PC=0003" := by
  decide
theorem test_V24_ldHl : shot (prog 0xFFFD [0x21, 0x34, 0x12]) = recordedAs "AF=0000 BC=0000 DE=0000 HL=1234 SP=0000 PC=0000" := by
  decide
theorem test_V25_ldHl_at_the_top :
    after (prog 0xFFFE [0x21, 0x34]) = { prog 0xFFFE [0x21, 0x34] with pc := 0xFFFF, fatal := some (.outOfBounds 65535 2) } := by
  decide
theorem test_V26_ldHl_wraps : shot (prog 0xFFFF [0x21, 0x34, 0x12]) = recordedAs "AF=0000 BC=0000 DE=0000 HL=1234 SP=0000 PC=0002" := by
  decide

theorem test_V30_store_bc :
    let s := after { prog 0x10 [0x02] with a := 0x5A, b := 0xC0, c := 0x5A, h := 0x12, l := 0x34 }
    s.byteAt 0xC05A = 0x5A ∧ s.readPair .hl = 0x1234 ∧ s.pc = 0x11 := by decide
theorem test_V31_store_de :
    let s := after { prog 0x10 [0x12] with a := 0x5A, d := 0xD0, h := 0x12, l := 0x34 }
    s.byteAt 0xD000 = 0x5A ∧ s.readPair .hl = 0x1234 := by decide
theorem test_V32_store_hl_inc :
    let s := after { prog 0x10 [0x22] with a := 0xFF, f := 0x10, l := 0xFF }
    s.byteAt 0x00FF = 0xFF ∧ s.readPair .hl = 0x0100 ∧ s.f = 0x10 := by decide
theorem test_V33_store_hl_inc_wraps :
    let s := after { prog 0x10 [0x22] with a := 0x5A, h := 0xFF, l := 0xFF }
    s.byteAt 0xFFFF = 0x5A ∧ s.readPair .hl = 0x0000 ∧ s.fatal = none := by decide
theorem test_V34_store_hl_dec_wraps :
    let s := after { prog 0x10 [0x32] with a := 0x5A }
    s.byteAt 0x0000 = 0x5A ∧ s.readPair .hl = 0xFFFF := by decide
theorem test_V35_store_hl_dec :
    let s := after { prog 0x10 [0x32] with h := 0x80 }
    s.byteAt 0x8000 = 0x00 ∧ s.h = 0x7F ∧ s.l = 0xFF := by decide
theorem test_V36_legacy : (match storeAThroughPair true .bc { State.reset with a := 0x5A, b := 0xC0, c := 0x5A, h := 0x12, l := 0x34 } with
    | .next s => s.readPair .hl
    | _ => 0) = 0x1233 := by decide

theorem test_V40_xorA : shot { prog 0 [0xAF] with a := 0x01, f := 0xB0, h := 0x01, l := 0x4D } =
    recordedAs "AF=0080 BC=0000 DE=0000 HL=014D SP=0000 PC=0001" := by decide
theorem test_V41_xorL : shot { prog 0 [0xAD] with a := 0x01, f := 0xB0, h := 0x01, l := 0x4D } =
    recordedAs "AF=4C00 BC=0000 DE=0000 HL=014D SP=0000 PC=0001" := by decide
theorem test_V42_xorH : shot { prog 0 [0xAC] with a := 0x01, f := 0xB0, h := 0x01, l := 0x4D } =
    recordedAs "AF=0080 BC=0000 DE=0000 HL=014D SP=0000 PC=0001" := by decide
theorem test_V43_xorC : shot { prog 0 [0xA9] with b := 0xC0, c := 0x5A } =
    recordedAs "AF=5A00 BC=C05A DE=0000 HL=0000 SP=0000 PC=0001" := by decide
theorem test_V44_xorB : shot { prog 0 [0xA8] with f := 0xF0, b := 0xC0, c := 0x5A } =
    recordedAs "AF=C000 BC=C05A DE=0000 HL=0000 SP=0000 PC=0001" := by decide
theorem test_V45_xorD : shot { prog 0 [0xAA] with a := 0xFF, d := 0x0F, e := 0xD8 } =
    recordedAs "AF=F000 BC=0000 DE=0FD8 HL=0000 SP=0000 PC=0001" := by decide
theorem test_V46_xorE : shot { prog 0 [0xAB] with a := 0xD8, f := 0x10, e := 0xD8 } =
    recordedAs "AF=0080 BC=0000 DE=00D8 HL=0000 SP=0000 PC=0001" := by decide
theorem test_V47_xor_memory_operand : shot (prog 0 [0xAE]) = (none, some (.unimplementedOpcode .default 0xAE)) := by decide

theorem test_V50_bit7H_clear : shot { prog 0 [0xCB, 0x7C] with f := 0xC0 } =
    recordedAs "AF=00A0 BC=0000 DE=0000 HL=0000 SP=0000 PC=0002" := by decide
theorem test_V51_bit7H_keeps_carry : shot { prog 0 [0xCB, 0x7C] with h := 0x7F, f := 0xD0 } =
    recordedAs "AF=00B0 BC=0000 DE=0000 HL=7F00 SP=0000 PC=0002" := by decide
theorem test_V53_bit7H_set : shot { prog 0 [0xCB, 0x7C] with h := 0xFF, f := 0xD0 } =
    recordedAs "AF=0030 BC=0000 DE=0000 HL=FF00 SP=0000 PC=0002" := by decide
theorem test_V54_bit3E : shot { prog 0 [0xCB, 0x5B] with e := 0x08, f := 0x50 } =
    recordedAs "AF=0030 BC=0000 DE=0008 HL=0000 SP=0000 PC=0002" := by decide
theorem test_V55_bit2E : shot { prog 0 [0xCB, 0x53] with e := 0x08, f := 0x50 } =
    recordedAs "AF=00B0 BC=0000 DE=0008 HL=0000 SP=0000 PC=0002" := by decide
theorem test_V56_bit0A : shot { prog 0 [0xCB, 0x47] with a := 0x01 } =
    recordedAs "AF=0120 BC=0000 DE=0000 HL=0000 SP=0000 PC=0002" := by decide
theorem test_V57_bit7H_wraps : shot (prog 0xFFFF [0xCB, 0x7C]) =
    recordedAs "AF=00A0 BC=0000 DE=0000 HL=0000 SP=0000 PC=0001" := by decide
theorem test_V58_bit_memory_operand :
    shot (prog 0 [0xCB, 0x46]) = (none, some (.unimplementedOpcode .cb 0x46)) ∧ (after (prog 0 [0xCB, 0x46])).pc = 2 := by decide

theorem test_V60_jr_backward : (after (prog 0 [0x20, 0x80])).pc = 0xFF82 := by decide
theorem test_V61_jr_forward_wraps : (after (prog 0xFFF0 [0x20, 0x7F])).pc = 0x0071 := by decide
theorem test_V62_jr_to_itself : (after (prog 0x0300 [0x20, 0xFE])).pc = 0x0300 := by decide
theorem test_V64_jr_not_taken : (after { prog 0x0300 [0x20, 0x80] with f := 0x80 }).pc = 0x0302 := by decide
theorem test_V65_V66_jr_at_the_top :
    (after (prog 0xFFFF [0x20, 0x05])).pc = 0x0006 ∧ (after (prog 0xFFFE [0x20, 0x02])).pc = 0x0002 := by decide
theorem test_V67_jp : (after (prog 0x0101 [0xC3, 0x50, 0x01])).pc = 0x0150 := by decide
theorem test_V69_jp_at_the_top :
    shot (prog 0xFFFE [0xC3, 0x34]) = (none, some (.outOfBounds 65535 2)) ∧ (after (prog 0xFFFE [0xC3, 0x34])).pc = 0xFFFF := by
  decide
theorem test_V70_jp_wraps : (after (prog 0xFFFF [0xC3, 0x34, 0x12])).pc = 0x1234 := by decide

theorem test_V80_second_lead_byte : shot (prog 0 [0xCB, 0xCB]) = (none, some (.unimplementedOpcode .cb 0xCB)) := by decide
theorem test_V81_bank_dd : shot (prog 0 [0xDD, 0x00]) = (none, some (.unimplementedOpcode .dd 0x00)) := by decide
theorem test_V82_bank_ed_wraps :
    shot (prog 0xFFFF [0xED, 0x44]) = (none, some (.unimplementedOpcode .ed 0x44)) ∧ (after (prog 0xFFFF [0xED, 0x44])).pc = 1 := by
  decide
theorem test_V84_latched : after (after (prog 0 [0x76])) = after (prog 0 [0x76]) := by decide

theorem test_V90_beyond_the_window :
    shot { State.reset with expected := some ["x".toList], count := 1 } =
      recordedAs "AF=0000 BC=0000 DE=0000 HL=0000 SP=0000 PC=0001" := by decide
theorem test_V91_case_sensitive :
    (after { State.reset with expected := some ["af=0000 bc=0000 de=0000 hl=0000 sp=0000 pc=0001".toList] }).fatal.isSome = true := by
  decide
theorem test_V93_second_entry :
    let e1 := "AF=0000 BC=0000 DE=0000 HL=0000 SP=0000 PC=0003".toList
    let s := after { State.reset with pc := 1, count := 1, expected := some [[], e1] }
    s.fatal = some (.traceMismatch 1 e1 "AF=0000 BC=0000 DE=0000 HL=0000 SP=0000 PC=0002".toList) ∧ s.count = 2 ∧ s.pc = 2 := by
  decide
theorem test_V94_serialise : serialise ["ab".toList, "c".toList] = "ab\nc\n".toList ∧ parseExpected "ab\n\nc".toList = ["ab".toList, [], "c".toList] := by
  decide

theorem test_host_read_out_of_bounds :
    State.reset.hostReadWord 65535 = (none, State.reset.raise (.outOfBounds 65535 2)) := by decide

/-! ### Written effects: R75 and R201 let the host register them, with the meaning their own text gives -/

/-- An entry `LD A, d8` at the unassigned byte 0x3E: `a <- imm8()`. -/
def loadAEntry : TableRow := ⟨.default, 0x3E, "LD A, d8", 8, .written (.andThen .imm8 (.andThen (.setReg .a (.slot 0)) .done))⟩

/-- An entry `CPL` at the byte of `XOR A`: `a <- a xor 0xFF ; n <- 1 ; h <- 1`. -/
def complementEntry : TableRow :=
  ⟨.default, 0xAF, "CPL", 4, .written (.andThen (.setReg .a (.xor (.reg .a) (.const 255)))
    (.andThen (.setFlag .n (.const 1)) (.andThen (.setFlag .h (.const 1)) .done)))⟩

/-- An entry of bank DD that sets `sp` and then writes a word at `sp`. -/
def storeWordEntry : TableRow :=
  ⟨.dd, 0x36, "X", 4, .written (.andThen (.setSp (.pair .hl)) (.andThen (.writeWord .sp (.const 0xBEEF)) .done))⟩

theorem test_effect_of_a_new_key :
    shot ((prog 0 [0x3E, 0x5A]).hostRegister loadAEntry) =
      recordedAs "AF=5A00 BC=0000 DE=0000 HL=0000 SP=0000 PC=0002" := by decide
theorem test_effect_replaces_an_instruction :
    shot ({ prog 0 [0xAF] with a := 0x0F, f := 0x90 }.hostRegister complementEntry) =
      recordedAs "AF=F0F0 BC=0000 DE=0000 HL=0000 SP=0000 PC=0001" := by decide
theorem test_effect_of_a_bank :
    let t := after ({ prog 0 [0xDD, 0x36] with h := 0xFF, l := 0xFE }.hostRegister storeWordEntry)
    t.byteAt 0xFFFE = 0xEF ∧ t.byteAt 0xFFFF = 0xBE ∧ t.pc = 2 ∧ t.count = 1 := by decide

/-- What an effect did before its fatal stays done, and nothing is recorded (R105, R220). -/
theorem test_effect_that_raises :
    let t := after ({ prog 0 [0xDD, 0x36] with h := 0xFF, l := 0xFF }.hostRegister storeWordEntry)
    t.fatal = some (.outOfBounds 65535 2) ∧ t.sp = 0xFFFF ∧ t.count = 0 := by decide
theorem test_effect_byte_out_of_bounds :
    (runEffect (.andThen (.writeByte (.const (-1)) (.const 7)) .done) [] State.reset) = State.reset.raise (.outOfBounds (-1) 1) := by
  decide
theorem test_effect_branches :
    let e := Effect.branch (.flag .z) (.andThen (.setPc (.pair .hl)) .done) (.andThen (.writeByte (.pair .hl) (.const 7))
      (.andThen (.writeByte (.add (.pair .hl) (.const 1)) (.const 8)) .done))
    (runEffect e [] { State.reset with h := 0x12, f := 0x80 }).pc = 0x1200 ∧
    (runEffect e [] { State.reset with h := 0x12 }).mem = [(0x1200, 7), (0x1201, 8)] := by decide
theorem test_decode_names_a_written_effect :
    decodeWith (registerRow baselineTable loadAEntry) [0x3E, 0x5A] = .error (.otherEffect .default 0x3E) := by decide

/-! ### Witnesses: one per statement with hypotheses, a case at the boundary for each clause -/

/-- A state with a one-entry log, F's low nibble zero and one byte of memory. -/
def logged : State :=
  { State.reset with f := 0xB0, mem := [(5, 0x07)], count := 1, trace := [snapshot State.reset] }

/-- Whether a step answers the next state `after`. -/
def answers (s : State) : Bool :=
  match step s with
  | .next _ => true
  | .fault _ => false
  | .refused _ => false

theorem step_after {s : State} (h : answers s = true) : step s = .next (after s) := by
  unfold answers at h
  unfold after
  cases hs : step s <;> simp [hs] at h ⊢

theorem witness_PairIsAViewOfTwoRegisters :
    (Pair.bc, Reg8.b, Reg8.c) ∈ pairHalves ∧ Pair.bc ≠ .af ∧ (Pair.af, Reg8.a, Reg8.f) ∈ pairHalves ∧
    Reg8.h ≠ .b ∧ Reg8.h ≠ .c := by decide
theorem witness_LowNibbleOfFReadsZero :
    logged.readReg .f &&& 0x0F#8 = 0#8 ∧ step logged = .next (after logged) :=
  ⟨by decide, step_after (by decide)⟩
theorem witness_FlagAccessIsIndependent : (Flag.z, (0x80 : Byte)) ∈ flagMasks ∧ Flag.c ≠ .z := by decide
theorem witness_ByteAccessFailsOnlyOutOfBounds :
    (-1 : Int) < 0 ∧ (65536 : Int) ≤ 65536 ∧ (0 : Int) ≤ 65535 ∧ (65535 : Int) < 65536 ∧ Memory.wf [(65535, 0x07)] = true ∧
    readByte [(65535, 0x07)] 65535 = .ok 0x07 ∧ readByte [(65535, 0x07)] (-1) = .error (.outOfBounds (-1) 1) := by decide
theorem witness_ReadReturnsTheByteLastWritten :
    Memory.wf logged.mem = true ∧ writeByte logged.mem 65535 0xFF = .ok [(5, 0x07), (65535, 0xFF)] ∧
    (0 : Int) ≤ 65535 ∧ (65535 : Int) < 65536 := by decide
theorem witness_ReadWordIsLittleEndian :
    (-1 : Int) < 0 ∧ 65536 ≤ (65535 : Int) + 1 ∧ (0 : Int) ≤ 65534 ∧ (65534 : Int) + 1 < 65536 ∧ Memory.wf logged.mem = true ∧
    readWord [(65535, 0x07)] 65534 = .ok 0x0700 := by decide
theorem witness_WriteWordIsLittleEndian :
    Memory.wf logged.mem = true ∧ 65536 ≤ (65535 : Int) + 1 ∧ (65534 : Int) + 1 < 65536 ∧
    writeWord logged.mem 65534 0x0102 = .ok [(5, 0x07), (65534, 0x02), (65535, 0x01)] := by decide
theorem witness_LoadCopiesAllOrFails :
    Memory.wf logged.mem = true ∧ (-1 : Int) < 0 ∧ 65536 < (65535 : Int) + [0x09#8, 0x09#8].length ∧
    (65535 : Int) + [0x09#8].length ≤ 65536 ∧ load logged.mem [0x09] 65535 = .ok [(5, 0x07), (65535, 0x09)] := by decide
theorem witness_AccessorsKeepTheCanonicalForm :
    Memory.wf logged.mem = true ∧ writeByte logged.mem 5 0 = .ok [] ∧ writeWord logged.mem 4 0x0700 = .ok logged.mem ∧
    load logged.mem [0x07] 5 = .ok logged.mem := by decide
theorem witness_EqualBytesAreEqualMemories :
    Memory.wf logged.mem = true ∧ ∀ x, Memory.peek logged.mem x = Memory.peek [(5, 0x07)] x :=
  ⟨by decide, fun _ => rfl⟩
theorem witness_DecodeOfEncodeIsTheInstruction : (Instr.ldSpNn 0xFFFE).wellFormed = true := by decide
theorem witness_DecodedBytesAreTheEncoding : decode [0xC3, 0x50, 0x01, 0x99] = .ok (.jpA16 0x0150, [0x99]) := by decide
theorem witness_OrderOfRegistrationsDoesNotMatter : baselineTable.reverse.Perm baselineTable := List.reverse_perm _
theorem witness_LoadPairImmediateResult : ({ State.reset with pc := 0xFFFE } : State).pc ≠ 0xFFFF := by decide
theorem witness_ImmediateAtTheTopIsOutOfBounds :
    ({ State.reset with pc := 0xFFFF } : State).pc = 0xFFFF ∧
    Instr.jpA16 7 ∈ [Instr.ldBcNn 7, .ldDeNn 7, .ldHlNn 7, .ldSpNn 7, .jpA16 7] := by decide
theorem witness_StoreAThroughPairResult : Memory.wf logged.mem = true := by decide
theorem witness_LegacyStoreDecrementsHl : Memory.wf logged.mem = true ∧ Pair.de ∈ [Pair.bc, Pair.de] := by decide
theorem witness_BitResult : (Instr.bit7H, 7, Reg8.h) ∈ bitForms ∧ (Instr.bit0A, 0, Reg8.a) ∈ bitForms := by decide
theorem witness_BitSetsZeroIffTheBitIsClear : (Instr.bit3E, 3, Reg8.e) ∈ bitForms := by decide
theorem witness_JumpRelativeResult :
    ({ State.reset with f := 0x80 } : State).readFlag .z = true ∧ ({ State.reset with f := 0x70 } : State).readFlag .z = false := by
  decide
theorem witness_JumpAbsoluteResult : ({ State.reset with pc := 0xFFFE } : State).pc ≠ 0xFFFF := by decide

/-- Each clause's register changes for an instruction that the clause names. -/
theorem witness_RegistersAreWrittenOnlyByTheirInstructions :
    (∃ t, execute (.instr .xorB) { State.reset with b := 1 } = .next t ∧ t.a ≠ 0) ∧
    (∃ t, execute (.instr .bit0A) State.reset = .next t ∧ t.f ≠ 0) ∧
    (∃ t, execute (.instr (.ldBcNn 0)) (prog 0 [1]) = .next t ∧ t.c ≠ 0) ∧
    (∃ t, execute (.instr (.ldDeNn 0)) (prog 0 [0, 1]) = .next t ∧ t.d ≠ 0) ∧
    (∃ t, execute (.instr .ldIndHlDecA) State.reset = .next t ∧ t.h ≠ 0) ∧
    (∃ t, execute (.instr (.ldSpNn 0)) (prog 0 [1]) = .next t ∧ t.sp ≠ 0) ∧
    (∃ t, execute (.instr (.jpA16 0)) (prog 0 [5]) = .next t ∧ t.pc ≠ 0) ∧
    (∃ t, execute (.instr (.jrNzR8 0)) State.reset = .next t ∧ t.pc ≠ 0) ∧
    (∃ t, execute (.instr .ldIndBcA) { State.reset with a := 1 } = .next t ∧ t.mem ≠ []) :=
  ⟨⟨_, rfl, by decide⟩, ⟨_, rfl, by decide⟩, ⟨_, rfl, by decide⟩, ⟨_, rfl, by decide⟩, ⟨_, rfl, by decide⟩,
    ⟨_, rfl, by decide⟩, ⟨_, rfl, by decide⟩, ⟨_, rfl, by decide⟩, ⟨_, rfl, by decide⟩⟩
theorem witness_StepRunsTheDecodedInstruction :
    let s := prog 0xFFFF [0xCB, 0x7C]
    let o := prog 0xFFFE [0x21]
    (s.Running ∧ decodeWith s.table s.window = .ok (.bit7H, [0x00, 0x00]) ∧ Instr.bit7H.operandBytes ≠ 2) ∧
    (o.Running ∧ decodeWith o.table o.window = .ok (.ldHlNn 0x0000, [0x00]) ∧ (Instr.ldHlNn 0x0000).operandBytes = 2 ∧
      (o.advancePc (headerBytes (o.byteAt o.pc))).pc = 0xFFFF) :=
  ⟨⟨rfl, by decide, by decide⟩, rfl, by decide, rfl, by decide⟩
theorem witness_DecodedImmediateIsWhatTheAccessorReads :
    let s := prog 0xFFFD [0x21, 0x34, 0x12]
    let o := prog 0xFFFE [0x20, 0x05]
    decodeWith s.table s.window = .ok (.ldHlNn 0x1234, [0x00]) ∧ (s.advancePc (headerBytes (s.byteAt s.pc))).pc ≠ 0xFFFF ∧
    decodeWith o.table o.window = .ok (.jrNzR8 0x05, [0x00, 0x00]) := by decide
theorem witness_UnassignedOpcodeIsFatal :
    (prog 0 [0xDD, 0x00]).Running ∧
    decodeWith (prog 0 [0xDD, 0x00]).table (prog 0 [0xDD, 0x00]).window = .error (.unassigned .dd 0x00) :=
  ⟨rfl, by decide⟩
theorem witness_LatchedMachineTakesNoStep :
    ({ State.reset with fatal := some (.outOfBounds 0xFFFF 2) } : State).fatal = some (.outOfBounds 0xFFFF 2) := by decide

/-- The four ways a step ends: recorded, recorded with a mismatch, unassigned opcode, out of bounds. -/
theorem witness_StepRecordsOnceOrIsFatalBefore :
    State.reset.Running ∧ step State.reset = .next (after State.reset) ∧
    ((after { State.reset with expected := some [[]] }).fatal = some (.traceMismatch 0 [] (snapshot (after State.reset)))) ∧
    ((after (prog 0 [0x76])).fatal = some (.unimplementedOpcode .default 0x76)) ∧
    (instructionsOnly (prog 0xFFFE [0xC3]).table = true ∧ (after (prog 0xFFFE [0xC3])).fatal = some (.outOfBounds 0xFFFF 2)) :=
  ⟨rfl, step_after (by decide), by decide, by decide, by decide, by decide⟩
theorem witness_OutOfBoundsOnlyAtTheTopOfMemory :
    (prog 0xFFFE [0x31]).Running ∧ (prog 0xFFFE [0x31]).table = baselineTable ∧
    step (prog 0xFFFE [0x31]) = .next (after (prog 0xFFFE [0x31])) ∧ (prog 0xFFFE [0x31]).byteAt 0xFFFE = 0x31 ∧
    (after (prog 0xFFFE [0x31])).fatal = some (.outOfBounds 0xFFFF 2) :=
  ⟨rfl, rfl, step_after (by decide), by decide, by decide⟩

/-- A jump, a relative jump taken and not taken, and one more instruction, each completed. -/
theorem witness_PcAfterACompletedStep :
    (prog 0 [0xC3, 0x34]).Running ∧ (prog 0 [0xC3, 0x34]).table = baselineTable ∧
    decodeWith baselineTable (prog 0 [0xC3, 0x34]).window = .ok (.jpA16 0x0034, [0x00]) ∧
    decodeWith baselineTable (prog 0xFFFF [0x20, 0xFB]).window = .ok (.jrNzR8 0xFB, [0x00, 0x00]) ∧
    decodeWith baselineTable (prog 0 [0xCB, 0x7C]).window = .ok (.bit7H, [0x00, 0x00]) ∧
    (after (prog 0 [0xC3, 0x34])).fatal = none ∧ (after (prog 0xFFFF [0x20, 0xFB])).fatal = none ∧
    (after { prog 0xFFFF [0x20, 0xFB] with f := 0x80 }).fatal = none ∧ (after (prog 0 [0xCB, 0x7C])).fatal = none :=
  ⟨rfl, rfl, by decide, by decide, by decide, by decide, by decide, by decide, by decide⟩
theorem witness_OnlyStoresChangeMemory :
    let s := { prog 0x10 [0x22] with a := 0x5A, h := 0xFF, l := 0xFF }
    Memory.wf s.mem = true ∧ instructionsOnly s.table = true ∧ step s = .next (after s) ∧
    Memory.peek (after s).mem 0xFFFF ≠ Memory.peek s.mem 0xFFFF :=
  ⟨by decide, by decide, step_after (by decide), by decide⟩
theorem witness_RunParametersAreConstant : step State.reset = .next (after State.reset) := step_after (by decide)
theorem witness_StepSeesOnlyItsOwnInstructionBytes :
    bytesRead State.reset = 1 ∧ instructionsOnly State.reset.table = true ∧
    (∀ k, k < bytesRead State.reset →
      ({ State.reset with mem := [(1, 0x07)] } : State).byteAt (State.reset.pc + BitVec.ofNat 16 k) =
        State.reset.byteAt (State.reset.pc + BitVec.ofNat 16 k)) ∧
    step State.reset = .next (after State.reset) ∧
    bytesRead (prog 0xFFFE [0xC3]) = 3 ∧ bytesRead (prog 0 [0xDD, 0x36]) = 2 := by
  refine ⟨by decide, by decide, ?_, step_after (by decide), by decide, by decide⟩
  rw [show bytesRead State.reset = 1 by decide]
  decide
theorem witness_StoredByteIsFetched :
    let s := { State.reset with a := 0x5A, b := 0xFF, c := 0xFF }
    Memory.wf s.mem = true ∧ (∃ t, exec .ldIndBcA s = .next t) ∧ (∃ t, exec .ldIndDeA s = .next t) ∧
    (∃ t, exec .ldIndHlIncA s = .next t) ∧ (∃ t, exec .ldIndHlDecA s = .next t) :=
  ⟨by decide, ⟨_, rfl⟩, ⟨_, rfl⟩, ⟨_, rfl⟩, ⟨_, rfl⟩⟩
theorem witness_NopStepAdvancesAndRecords :
    ({ State.reset with pc := 0xFFFF } : State).Running ∧ ({ State.reset with pc := 0xFFFF } : State).table = baselineTable ∧
    ({ State.reset with pc := 0xFFFF } : State).expected = none ∧ ({ State.reset with pc := 0xFFFF } : State).byteAt 0xFFFF = 0x00 :=
  ⟨rfl, rfl, rfl, by decide⟩
theorem witness_JumpToItselfSpins :
    let s := prog 0x0200 [0xC3, 0x00, 0x02]
    s.Running ∧ s.table = baselineTable ∧ s.expected = none ∧ s.pc ≠ 0xFFFE ∧ s.byteAt s.pc = 0xC3 ∧
    s.byteAt (s.pc + 1) = s.pc.extractLsb' 0 8 ∧ s.byteAt (s.pc + 2) = s.pc.extractLsb' 8 8 :=
  ⟨rfl, rfl, rfl, by decide, by decide, by decide, by decide⟩
theorem witness_StepKeepsTheInvariant : logged.Inv ∧ step logged = .next (after logged) :=
  ⟨⟨by decide, by decide, by decide, by decide⟩, step_after (by decide)⟩
theorem witness_SnapshotFormat : logged.f &&& 0x0F#8 = 0#8 := by decide
theorem witness_RecordComparesWithTheExpectedEntry :
    let s := { State.reset with count := 1, expected := some [[], ['x']] }
    s.expected = some [[], ['x']] ∧ [[], ['x']][s.count]? = some ['x'] ∧ (['x'] : Text) = ['x'] ∧ (['y'] : Text) ≠ ['x'] := by decide
theorem witness_NoComparisonBeyondTheExpectedSequence :
    let s := { State.reset with count := 1, expected := some [['x']] }
    let t := { State.reset with expected := some [['x']] }
    s.expected = some [['x']] ∧ [['x']].length ≤ s.count ∧
    t.expected = some [['x']] ∧ t.fatal = none ∧ [['x']][t.count]? = some ['x'] ∧
    ({ State.reset with expected := some [] } : State).expected = some [] ∧ State.reset.expected = none := by decide
theorem witness_LogTextSplitsBackIntoItsEntries : ∀ t ∈ [snapshot State.reset, []], '\n' ∉ t := by decide
theorem witness_StartupOnlyMarksStarted : step State.reset = .next (after State.reset) := step_after (by decide)
theorem witness_PresetsReachTheEntryState :
    State.reset.Running ∧ ({ State.reset with f := 0xB0 } : State).f = 0xB0 := ⟨rfl, rfl⟩
theorem witness_OverrunningLoadIsFatal : State.reset.Running ∧ 65536 < (65535 : Int) + [0x09#8, 0x09#8].length :=
  ⟨rfl, by decide⟩
theorem witness_RegisteredEffectRuns :
    let s := prog 0 [0x3E, 0x5A]
    let o := prog 0xFFFF [0xDD, 0x36]
    (s.Running ∧ loadAEntry.effect = .written (.andThen .imm8 (.andThen (.setReg .a (.slot 0)) .done)) ∧
      prefixBank (s.byteAt s.pc) = none ∧ loadAEntry.bank = .default ∧ loadAEntry.opcode = s.byteAt s.pc) ∧
    (o.Running ∧ prefixBank (o.byteAt o.pc) = some storeWordEntry.bank ∧ storeWordEntry.opcode = o.byteAt (o.pc + 1)) :=
  ⟨⟨rfl, rfl, by decide, rfl, by decide⟩, rfl, by decide, by decide⟩
theorem witness_StepRefusesOnlyByteAndWordAccesses :
    let s := prog 0xFFFE [0xC3]
    s.Running ∧ step s = .next (after s) ∧ (after s).fatal = some (.outOfBounds 65535 2) :=
  ⟨rfl, step_after (by decide), by decide⟩

end Sys2Proof.Tests
end

section
/-! PROOFS. The scope's equivalence (spec/00_scope.md R8): an instruction's pseudocode, run as a written effect, is the instruction's
meaning. The pseudocode computes with integers that a write narrows and the meaning with machine words, so the arithmetic comes first;
then what each written effect makes of a state; then `execute` on both sides, by the number of immediate bytes. -/

open Sys2Proof.Claims

namespace Sys2Proof.Machine

/-! ### The arithmetic of the pseudocode, narrowed to the machine's widths -/

/-- A sum reduced by the pseudocode's `mod 65536` is the sum of words (R19). -/
theorem ofInt_emod_word (v : Word) (k : Int) :
    BitVec.ofInt 16 (((v.toNat : Int) + k) % 65536) = v + BitVec.ofInt 16 k := by
  have hmod : BitVec.ofInt 16 (((v.toNat : Int) + k) % 65536) = BitVec.ofInt 16 ((v.toNat : Int) + k) :=
    BitVec.eq_of_toInt_eq (by rw [BitVec.toInt_ofInt, BitVec.toInt_ofInt]; exact Int.emod_bmod _ 65536)
  rw [hmod, BitVec.ofInt_add, ofInt_toNat]

/-- The pseudocode's `sext_16`: 256 subtracted from a byte above 127 (R7). -/
theorem sub_truth_eq_toInt (d : Byte) : (d.toNat : Int) - 256 * truth (decide ((127 : Int) < d.toNat)) = d.toInt := by
  have hd := d.isLt
  rw [BitVec.toInt_eq_toNat_cond]
  by_cases h : (127 : Int) < d.toNat
  · rw [decide_eq_true h, truth, if_pos rfl, if_neg (by omega)]; omega
  · rw [decide_eq_false h, truth, if_neg Bool.false_ne_true, if_pos (by omega)]; omega

/-- The pseudocode's `reg[r][b]`: the quotient by 2^b modulo 2. -/
theorem div_pow_emod_two (v : Byte) (b : Nat) :
    (v.toNat : Int) / 2 ^ b % 2 = truth (v.getLsbD b) := by
  rw [BitVec.getLsbD, Nat.testBit_eq_decide_div_mod_eq]
  norm_cast
  obtain h | h := Nat.mod_two_eq_zero_or_one (v.toNat / 2 ^ b) <;> rw [h] <;> rfl

theorem truth_eq_zero (p : Bool) : truth p = 0 ↔ p = false := by
  cases p <;> decide

/-- A flag set from a truth value takes that value. -/
theorem decide_truth_ne_zero (p : Bool) : decide (truth p ≠ 0) = p := by
  cases p <;> decide

theorem decide_toNat_eq_zero {w : Nat} (v : BitVec w) : decide ((v.toNat : Int) = 0) = (v == 0#w) :=
  decide_eq_decide.2 (by rw [Int.natCast_eq_zero, BitVec.toNat_eq, BitVec.toNat_ofNat, Nat.zero_mod])

/-! ### What the written effects of the pseudocode do -/

theorem runEffect_andThen {op : EffectOp} {slots slots' : List Int} {s s' : State} (h : runOp slots s op = .ok (slots', s'))
    (next : Effect) : runEffect (.andThen op next) slots s = runEffect next slots' s' := by
  simp only [runEffect, h]

theorem runEffect_bind {x : EffectExpr} {v : Int} {slots : List Int} {s : State} (h : evalExpr slots s x = v) (next : Effect) :
    runEffect (.andThen (.bind x) next) slots s = runEffect next (v :: slots) s :=
  runEffect_andThen (by rw [runOp, h]) next

/-- `pair[P] <- v` on the latest value. -/
theorem runEffect_setPair_slot (p : Pair) (v : Word) (s : State) :
    runEffect (.andThen (.setPair p (.slot 0)) .done) [(v.toNat : Int)] s = s.writePair p v := by
  simp [runEffect, runOp, evalExpr]

/-- `sp <- v` on the latest value. -/
theorem runEffect_setSp_slot (v : Word) (s : State) :
    runEffect (.andThen (.setSp (.slot 0)) .done) [(v.toNat : Int)] s = { s with sp := v } := by
  simp [runEffect, runOp, evalExpr]

/-- `pc <- v` on the latest value. -/
theorem runEffect_setPc_slot (v : Word) (s : State) :
    runEffect (.andThen (.setPc (.slot 0)) .done) [(v.toNat : Int)] s = { s with pc := v } := by
  simp [runEffect, runOp, evalExpr]

/-- A byte written at a register's value never fails (R45). -/
theorem runOp_writeByte_word {slots : List Int} {s : State} {x y : EffectExpr} {addr : Word} {v : Byte}
    (hx : evalExpr slots s x = addr.toNat) (hy : evalExpr slots s y = v.toNat) :
    runOp slots s (.writeByte x y) = .ok (slots, { s with mem := Memory.poke s.mem addr.toNat v }) := by
  simp only [runOp, hx, hy, ofInt_toNat, writeByte_word, storeResult]

theorem runEffect_storeEffect (p : Pair) (s : State) :
    runEffect (storeEffect p) [] s = { s with mem := Memory.poke s.mem (s.readPair p).toNat s.a } :=
  runEffect_andThen (runOp_writeByte_word rfl rfl) .done

/-- The store, and HL moved by `k` from its value before the store. -/
theorem runEffect_storeStepEffect (k : Int) (s : State) :
    runEffect (storeStepEffect k) [] s =
      ({ s with mem := Memory.poke s.mem (s.readPair .hl).toNat s.a } : State).writePair .hl
        (s.readPair .hl + BitVec.ofInt 16 k) := by
  rw [storeStepEffect, runEffect_bind rfl,
    runEffect_andThen (runOp_writeByte_word (addr := s.readPair .hl) (v := s.a) rfl rfl), ← ofInt_emod_word]
  rfl

theorem runEffect_xorEffectOf (r : Operand8) (s : State) : runEffect (xorEffectOf (operandReg r)) [] s = xorEffect r s := by
  have hres : evalExpr [] s (.xor (.reg .a) (.reg (operandReg r))) = ((s.a ^^^ s.readOperand r).toNat : Int) := by
    rw [BitVec.toNat_xor]; rfl
  rw [xorEffectOf, runEffect_bind hres]
  simp only [runEffect, runOp, evalExpr, List.getD_cons_zero, ofInt_toNat, decide_truth_ne_zero, decide_toNat_eq_zero]
  rfl

theorem runEffect_bitEffectOf (b : Fin 8) (r : Operand8) (s : State) :
    runEffect (bitEffectOf b.val (operandReg r)) [] s = bitEffect b r s := by
  have hbit : evalExpr [] s (.mod (.div (.reg (operandReg r)) (.const (2 ^ b.val))) (.const 2)) =
      truth ((s.readOperand r).getLsbD b.val) := div_pow_emod_two _ _
  rw [bitEffectOf, runEffect_bind hbit]
  simp only [runEffect, runOp, evalExpr, List.getD_cons_zero, decide_truth_ne_zero, truth_eq_zero, Bool.decide_eq_false]
  rfl

/-- A leading `imm8()` hands the byte at `pc` to the rest and never fails (R76). -/
theorem runEffect_imm8 (next : Effect) (slots : List Int) (s : State) :
    runEffect (.andThen .imm8 next) slots s = runEffect next (((s.byteAt s.pc).toNat : Int) :: slots) (s.advancePc 1) :=
  runEffect_andThen (by rw [runOp, imm8_eq]) next

/-- The word at `pc` in the bytes that stand there: what `imm16` reads, without its advance. -/
theorem readWord_pc (s : State) :
    readWord s.mem s.pc.toNat =
      if s.pc = 0xFFFF#16 then .error (.outOfBounds 0xFFFF 2) else .ok (wordOf (s.byteAt (s.pc + 1)) (s.byteAt s.pc)) := by
  have himm := imm16_eq s
  by_cases hpc : s.pc = 0xFFFF#16
  · rw [readWord_word, if_pos hpc, if_pos hpc]
  · rw [if_neg hpc] at himm ⊢
    rw [imm16] at himm
    cases hread : readWord s.mem s.pc.toNat with
    | error fault => rw [hread] at himm; cases himm
    | ok v => rw [hread] at himm; cases himm; rfl

/-- The displacement is added to the address after it where Z is clear (R160). -/
theorem runEffect_jumpRelativeEffect (s : State) :
    runEffect jumpRelativeEffect [] s =
      if (s.advancePc 1).readFlag .z then s.advancePc 1
      else { s.advancePc 1 with pc := (s.advancePc 1).pc + signExtend16 (s.byteAt s.pc) } := by
  have htarget : ∀ (pc : Word) (d : Byte),
      BitVec.ofInt 16 ((pc.toNat : Int) + d.toNat - 256 * truth (decide ((127 : Int) < d.toNat))) = pc + signExtend16 d :=
    fun pc d => by rw [Int.add_sub_assoc, sub_truth_eq_toInt, BitVec.ofInt_add, ofInt_toNat]; rfl
  rw [jumpRelativeEffect, runEffect_imm8]
  simp only [runEffect, runOp, evalExpr, List.getD_cons_zero, truth_eq_zero, htarget]
  cases (s.advancePc 1).readFlag .z <;> rfl

/-! ### `Execute` of the pseudocode and of the instruction -/

theorem execute_written (e : Effect) (s : State) : execute (.written e) s = .next (runEffect e [] s) := rfl

/-- A form without an immediate: its pseudocode runs to the state its meaning answers. -/
theorem execute_written_of_exec {i : Instr} {e : Effect} {s t : State} (h0 : i.operandBytes = 0) (hexec : exec i s = .next t)
    (hrun : runEffect e [] s = t) : execute (.written e) s = execute (.instr i) s := by
  simp only [execute, readImmediate, h0, hexec, hrun]

/-- A form with a word immediate: both sides raise at 0xFFFF (R77), and else go on from the same word. -/
theorem execute_written_of_imm16 {i : Instr} {next : Effect} (h2 : i.operandBytes = 2) (s : State)
    (hnext : ∀ lo hi t, exec (i.withOperand lo hi) t = .next (runEffect next [((wordOf hi lo).toNat : Int)] t)) :
    execute (.written (.andThen .imm16 next)) s = execute (.instr i) s := by
  rw [execute_written, execute_instr]
  by_cases hpc : s.pc = 0xFFFF#16
  · rw [if_pos ⟨h2, hpc⟩]
    simp only [runEffect, runOp, imm16_eq, if_pos hpc]
  · have himm : runOp [] s .imm16 = .ok ([((wordOf (s.byteAt (s.pc + 1)) (s.byteAt s.pc)).toNat : Int)], s.advancePc 2) := by
      simp only [runOp, imm16_eq, if_neg hpc]
    rw [if_neg fun h => hpc h.2, h2, hnext, runEffect_andThen himm]

theorem execute_loadPairEffect {i : Instr} {p : Pair} (h2 : i.operandBytes = 2)
    (hexec : ∀ lo hi t, exec (i.withOperand lo hi) t = .next (t.writePair p (wordOf hi lo))) (s : State) :
    execute (.written (loadPairEffect p)) s = execute (.instr i) s :=
  execute_written_of_imm16 h2 s fun lo hi t => by rw [hexec, runEffect_setPair_slot]

theorem execute_loadSpEffect (nn : Word) (s : State) :
    execute (.written loadSpEffect) s = execute (.instr (.ldSpNn nn)) s :=
  execute_written_of_imm16 rfl s fun lo hi t => by rw [runEffect_setSp_slot]; rfl

/-- `JP a16` reads its word by `MemRead(pc, 2)` and leaves `pc` where it is until it jumps (R161). -/
theorem execute_jumpEffect (a16 : Word) (s : State) :
    execute (.written jumpEffect) s = execute (.instr (.jpA16 a16)) s := by
  rw [execute_written, execute_instr]
  by_cases hpc : s.pc = 0xFFFF#16
  · rw [if_pos ⟨rfl, hpc⟩]
    have hread : runOp [] s (.readWord .pc) = .error (.outOfBounds 0xFFFF 2) := by
      rw [runOp, evalExpr, readWord_pc, if_pos hpc]; rfl
    simp only [jumpEffect, runEffect, hread]
  · rw [if_neg fun h => hpc h.2]
    have hread : runOp [] s (.readWord .pc) = .ok ([((wordOf (s.byteAt (s.pc + 1)) (s.byteAt s.pc)).toNat : Int)], s) := by
      rw [runOp, evalExpr, readWord_pc, if_neg hpc]; rfl
    rw [jumpEffect, runEffect_andThen hread, runEffect_setPc_slot]
    rfl

theorem execute_jumpRelativeEffect (d : Byte) (s : State) :
    execute (.written jumpRelativeEffect) s = execute (.instr (.jrNzR8 d)) s := by
  have hok : ¬ImmediateFails (.jrNzR8 d) s := by simp [ImmediateFails, Instr.operandBytes]
  rw [execute_written, runEffect_jumpRelativeEffect, execute_instr, if_neg hok]
  rfl

theorem xorForms_pseudocode : ∀ q ∈ xorForms, q.1.operandBytes = 0 ∧ q.1.pseudocode = xorEffectOf q.2 := by decide

theorem bitForms_pseudocode : ∀ q ∈ bitForms, q.1.operandBytes = 0 ∧ q.1.pseudocode = bitEffectOf q.2.1 q.2.2 := by decide

/-- Settles O56, by the thirteen effects an instruction can have (`exec_cases`). -/
theorem pseudocodeIsTheMeaning : Obligations.PseudocodeIsTheMeaning := by
  intro i s
  obtain ⟨t, hexec⟩ := exec_next i s
  rcases exec_cases hexec with ⟨nn, rfl, -⟩ | ⟨nn, rfl, -⟩ | ⟨nn, rfl, -⟩ | ⟨nn, rfl, -⟩ | ⟨nn, rfl, -⟩ | ⟨d, rfl, -⟩ |
    ⟨rfl, rfl⟩ | ⟨rfl, rfl⟩ | ⟨rfl, rfl⟩ | ⟨rfl, rfl⟩ | ⟨rfl, rfl⟩ | ⟨r, hform, rfl⟩ | ⟨b, r, hform, rfl⟩
  · exact execute_loadPairEffect rfl (fun _ _ _ => rfl) s
  · exact execute_loadPairEffect rfl (fun _ _ _ => rfl) s
  · exact execute_loadPairEffect rfl (fun _ _ _ => rfl) s
  · exact execute_loadSpEffect nn s
  · exact execute_jumpEffect nn s
  · exact execute_jumpRelativeEffect d s
  · exact execute_written_of_exec rfl hexec (runEffect_storeEffect .bc s)
  · exact execute_written_of_exec rfl hexec (runEffect_storeEffect .de s)
  · exact execute_written_of_exec rfl hexec (runEffect_storeStepEffect 1 s)
  · exact execute_written_of_exec rfl hexec (runEffect_storeStepEffect 65535 s)
  · exact execute_written_of_exec rfl hexec rfl
  · obtain ⟨h0, hcode⟩ := xorForms_pseudocode _ hform
    exact execute_written_of_exec h0 hexec (hcode ▸ runEffect_xorEffectOf r s)
  · obtain ⟨h0, hcode⟩ := bitForms_pseudocode _ hform
    exact execute_written_of_exec h0 hexec (hcode ▸ runEffect_bitEffectOf b r s)

end Sys2Proof.Machine
end
section
/-! PROOFS. The registers, the flags and the invariant (spec/10_state.md). First the views of the bank: the pairs (R11, R12) and the
flags (R14). Then what a step keeps: one argument over the parts of a step (`KeptByParts`), used for the invariant, for the run
parameters and, with the launch (R208), for the low nibble of F (R13). Then which instruction writes which register (R22), and `pc`
after a step (R18). -/

open Sys2Proof.Claims

namespace Sys2Proof.Machine

/-! ### Pairs (R11, R12) -/

theorem wordOf_eq_or (hi lo : Byte) : wordOf hi lo = (hi.setWidth 16 <<< 8) ||| lo.setWidth 16 := by
  rw [← BitVec.setWidth_append_eq_shiftLeft_setWidth_or, BitVec.setWidth_eq, wordOf]

theorem wordOf_and (hi lo hi' lo' : Byte) : wordOf hi lo &&& wordOf hi' lo' = wordOf (hi &&& hi') (lo &&& lo') :=
  BitVec.and_append

theorem pairHalves_eq : ∀ q ∈ pairHalves, q.2.1 = pairHigh q.1 ∧ q.2.2 = pairLow q.1 := by decide

theorem pairHigh_ne_pairLow (p : Pair) : pairHigh p ≠ pairLow p := by cases p <;> decide

theorem pairHigh_ne_f (p : Pair) : pairHigh p ≠ .f := by cases p <;> decide

theorem pairLow_eq_f_iff (p : Pair) : pairLow p = .f ↔ p = .af := by cases p <;> decide

@[simp] theorem readReg_pairHigh_writePair (s : State) (p : Pair) (v : Word) :
    (s.writePair p v).readReg (pairHigh p) = highByte v := by
  rw [State.writePair, readReg_writeReg_other _ (pairHigh_ne_pairLow p), readReg_writeReg_self, if_neg (pairHigh_ne_f p)]

@[simp] theorem readReg_pairLow_writePair (s : State) (p : Pair) (v : Word) :
    (s.writePair p v).readReg (pairLow p) = if p = .af then maskF (lowByte v) else lowByte v := by
  simp only [State.writePair, readReg_writeReg_self, pairLow_eq_f_iff]

theorem readReg_writePair_other (s : State) {p : Pair} {r : Reg8} (hhigh : r ≠ pairHigh p) (hlow : r ≠ pairLow p) (v : Word) :
    (s.writePair p v).readReg r = s.readReg r := by
  rw [State.writePair, readReg_writeReg_other _ hlow, readReg_writeReg_other _ hhigh]

/-- A pair read after a write of it: the value written, but for the low nibble of F (R12, R13). -/
@[simp] theorem readPair_writePair_self (s : State) (p : Pair) (v : Word) :
    (s.writePair p v).readPair p = if p = .af then wordOf (highByte v) (maskF (lowByte v)) else v := by
  rw [State.readPair, readReg_pairHigh_writePair, readReg_pairLow_writePair]
  by_cases haf : p = .af
  · rw [if_pos haf, if_pos haf]
  · rw [if_neg haf, if_neg haf, wordOf_high_low]

theorem wordOf_maskF (v : Word) : wordOf (highByte v) (maskF (lowByte v)) = v &&& 0xFFF0#16 := by
  calc wordOf (highByte v) (maskF (lowByte v))
      = wordOf (highByte v &&& BitVec.allOnes 8) (lowByte v &&& 0xF0#8) := by rw [BitVec.and_allOnes, maskF]
    _ = v &&& wordOf (BitVec.allOnes 8) 0xF0#8 := by rw [← wordOf_and, wordOf_high_low]
    _ = v &&& 0xFFF0#16 := rfl

/-- Settles O2: the halves of a pair are its two registers, so a pair is read and written through the register laws. -/
theorem pairIsAViewOfTwoRegisters : Obligations.PairIsAViewOfTwoRegisters := by
  rintro s ⟨p, high, low⟩ hq
  obtain ⟨rfl, rfl⟩ : high = pairHigh p ∧ low = pairLow p := pairHalves_eq _ hq
  refine ⟨wordOf_eq_or _ _, wordOf_toNat _ _, fun v => ⟨readReg_pairHigh_writePair s p v, fun hne => ⟨?_, ?_⟩, ?_,
    fun r hhigh hlow => readReg_writePair_other s hhigh hlow v, writePair_pc s p v, writePair_sp s p v, writePair_mem s p v⟩⟩
  · rw [readReg_pairLow_writePair, if_neg hne]; rfl
  · rw [readPair_writePair_self, if_neg hne]
  · intro haf
    rw [readPair_writePair_self, if_pos haf, wordOf_maskF]

/-! ### Flags (R14) -/

theorem flagMasks_eq : ∀ q ∈ flagMasks, q.2 = flagMask q.1 := by decide

/-- A flag's mask has one bit, at its position; so two flags have no bit in common. -/
theorem getLsbD_flagMask (fl other : Flag) : (flagMask fl).getLsbD (flagPos other) = decide (other = fl) := by
  cases fl <;> cases other <;> rfl

theorem getLsbD_highNibble (fl : Flag) : (0xF0#8).getLsbD (flagPos fl) = true := by cases fl <;> rfl

theorem flagPos_lt (fl : Flag) : flagPos fl < 8 := by cases fl <;> decide

/-- A flag read after a write of a flag: what was written to that flag, the others as before. -/
@[simp] theorem readFlag_setFlag (s : State) (fl other : Flag) (b : Bool) :
    (s.setFlag fl b).readFlag other = if other = fl then b else s.readFlag other := by
  have hbit : (if b then flagMask fl else 0#8).getLsbD (flagPos other) = (b && decide (other = fl)) := by
    cases b
    · exact BitVec.getLsbD_zero
    · exact getLsbD_flagMask fl other
  rw [State.readFlag, State.setFlag, BitVec.getLsbD_or, BitVec.getLsbD_and, BitVec.getLsbD_and, BitVec.getLsbD_not,
    getLsbD_highNibble, getLsbD_flagMask, hbit, decide_eq_true (flagPos_lt other)]
  by_cases h : other = fl
  · simp [h]
  · simp [h, State.readFlag]

theorem and_flagMask_ne_zero_iff (v : Byte) (fl : Flag) : v &&& flagMask fl ≠ 0#8 ↔ v.getLsbD (flagPos fl) = true := by
  have bit : ∀ x : Byte, x &&& flagMask fl ≠ 0#8 ↔ x.getLsbD (flagPos fl) = true := by cases fl <;> decide
  exact bit v

theorem highNibble_and_not_flagMask (fl : Flag) : 0xF0#8 &&& ~~~flagMask fl = 0xF0#8 ^^^ flagMask fl := by cases fl <;> rfl

/-- Settles O4: a flag's mask is the one bit at its position, so a write of it meets no other flag. -/
theorem flagAccessIsIndependent : Obligations.FlagAccessIsIndependent := by
  rintro s ⟨fl, mask⟩ hq b
  obtain rfl : mask = flagMask fl := flagMasks_eq _ hq
  refine ⟨(and_flagMask_ne_zero_iff s.f fl).symm, ?_, ?_, fun other hne => ?_⟩
  · rw [State.setFlag, highNibble_and_not_flagMask]
  · rw [readFlag_setFlag, if_pos rfl]
  · rw [readFlag_setFlag, if_neg hne]

/-! ### The frame of each meaning that writes registers -/

theorem writePair_bc (s : State) (v : Word) : s.writePair .bc v = { s with b := highByte v, c := lowByte v } := rfl

theorem writePair_de (s : State) (v : Word) : s.writePair .de v = { s with d := highByte v, e := lowByte v } := rfl

theorem writePair_hl (s : State) (v : Word) : s.writePair .hl v = { s with h := highByte v, l := lowByte v } := rfl

theorem incHl_frame (s : State) : s.incHl = { s with h := s.incHl.h, l := s.incHl.l } := writePair_hl s _

theorem decHl_frame (s : State) : s.decHl = { s with h := s.decHl.h, l := s.decHl.l } := writePair_hl s _

theorem xorEffect_frame (r : Operand8) (s : State) :
    xorEffect r s = { s with a := (xorEffect r s).a, f := (xorEffect r s).f } := rfl

theorem bitEffect_frame (b : Fin 8) (r : Operand8) (s : State) : bitEffect b r s = { s with f := (bitEffect b r s).f } := rfl

/-! ### What a step keeps -/

/-- A predicate of states that each part of a step keeps: the advance of `pc`, a fatal raised, an instruction's meaning, a written
effect, the record (R107). -/
structure KeptByParts (P : State → Prop) : Prop where
  advance : ∀ {k s}, P s → P (s.advancePc k)
  raise   : ∀ {fault s}, P s → P (s.raise fault)
  exec    : ∀ {i s t}, P s → exec i s = .next t → P t
  effect  : ∀ {e slots s}, P s → P (runEffect e slots s)
  record  : ∀ {s}, P s → P (record s)

/-- What every part keeps, the step keeps. -/
theorem KeptByParts.step {P : State → Prop} (parts : KeptByParts P) {s t : State} (hs : P s)
    (hstep : Machine.step s = .next t) : P t := by
  have hat : P s.atEffect := parts.advance hs
  by_cases hfatal : s.fatal = none
  · rcases step_cases hfatal hstep with ⟨i, _, -, ⟨-, rfl⟩ | ⟨-, u, hexec, rfl⟩⟩ | ⟨_, e, _, _, -, -, -, rfl⟩ | ⟨_, _, -, rfl⟩
    · exact parts.raise hat
    · exact parts.record (parts.exec (parts.advance hat) hexec)
    · exact parts.record (parts.effect hat)
    · exact parts.raise hat
  · rw [step_latched hfatal] at hstep
    cases hstep
    exact hs

/-! ### The record (R106, R181) -/

/-- A record with a fatal latched does nothing; else it is `TraceRecord` of the snapshot. -/
theorem record_cases (s : State) : record s = s ∨ record s = traceRecord (snapshot s) s := by
  by_cases h : s.fatal.isSome = true
  · exact .inl (if_pos h)
  · exact .inr (if_neg h)

/-- A record changes the log and the latch only. -/
theorem record_frame (s : State) :
    record s = { s with trace := (record s).trace, count := (record s).count, fatal := (record s).fatal } := by
  rcases record_cases s with h | h
  · rw [h]
  · rcases traceRecord_cases (snapshot s) s with h' | ⟨_, -, -, h'⟩ <;> rw [h, h']

@[simp] theorem record_f (s : State) : (record s).f = s.f := by rw [record_frame]
@[simp] theorem record_pc (s : State) : (record s).pc = s.pc := by rw [record_frame]
@[simp] theorem record_table (s : State) : (record s).table = s.table := by rw [record_frame]
@[simp] theorem record_expected (s : State) : (record s).expected = s.expected := by rw [record_frame]
@[simp] theorem record_started (s : State) : (record s).started = s.started := by rw [record_frame]

/-! ### The invariant -/

/-- The invariant speaks of F, the memory and the log: what keeps the log needs to answer for the other two only. -/
theorem State.Inv.of_log_eq {s t : State} (h : s.Inv) (hf : t.f &&& 0x0F#8 = 0#8) (hm : Memory.wf t.mem = true)
    (htrace : t.trace = s.trace) (hcount : t.count = s.count) : t.Inv where
  fLow := hf
  memWf := hm
  countTrace := by rw [htrace, hcount, h.countTrace]
  entryLength := by rw [htrace]; exact h.entryLength

theorem State.Inv.raise {s : State} (h : s.Inv) (fault : Fault) : (s.raise fault).Inv := h.of_log_eq h.fLow h.memWf rfl rfl

/-- `TraceRecord` of a text of 47 characters keeps the invariant (R182, R183). -/
theorem State.Inv.traceRecord {s : State} (h : s.Inv) {snap : Text} (hsnap : snap.length = 47) : (traceRecord snap s).Inv := by
  have logged : (recorded snap s).Inv :=
    { fLow := h.fLow
      memWf := h.memWf
      countTrace := by simp [recorded, h.countTrace]
      entryLength := fun entry hentry => by
        rcases List.mem_append.1 hentry with hold | hnew
        · exact h.entryLength entry hold
        · rw [List.mem_singleton.1 hnew, hsnap] }
  rcases traceRecord_cases snap s with heq | ⟨_, -, -, heq⟩ <;> rw [heq]
  · exact logged
  · exact logged.raise _

theorem State.Inv.record {s : State} (h : s.Inv) : (record s).Inv := by
  rcases record_cases s with heq | heq <;> rw [heq]
  · exact h
  · exact h.traceRecord (snapshot_length s)

theorem inv_keptByParts : KeptByParts State.Inv where
  advance h := h.of_log_eq h.fLow h.memWf rfl rfl
  raise h := h.raise _
  exec h hexec := by
    obtain ⟨hf, hm⟩ := exec_keeps hexec h.fLow h.memWf
    obtain ⟨htrace, hcount, -⟩ := exec_outer hexec
    exact h.of_log_eq hf hm htrace hcount
  effect {e slots s} h := by
    obtain ⟨hf, hm⟩ := runEffect_keeps e slots h.fLow h.memWf
    obtain ⟨htrace, hcount, -⟩ := runEffect_outer e slots s
    exact h.of_log_eq hf hm htrace hcount
  record h := h.record

/-- Settles O43, by the parts of a step. -/
theorem stepKeepsTheInvariant : Obligations.StepKeepsTheInvariant :=
  fun _ _ hs hstep => inv_keptByParts.step hs hstep

/-- Settles O42: no register set, no byte listed, nothing recorded. -/
theorem resetSatisfiesTheInvariant : Obligations.ResetSatisfiesTheInvariant where
  fLow := rfl
  memWf := rfl
  countTrace := rfl
  entryLength := nofun

/-! ### The run parameters (R26, R201) -/

/-- The table, the expected sequence and `started` of a state are those of `s`. -/
def SameRunParameters (s t : State) : Prop := t.table = s.table ∧ t.expected = s.expected ∧ t.started = s.started

theorem sameRunParameters_keptByParts (s : State) : KeptByParts (SameRunParameters s) where
  advance h := h
  raise h := h
  exec h hexec := by
    obtain ⟨-, -, -, hstarted, htable, hexpected⟩ := exec_outer hexec
    rwa [SameRunParameters, hstarted, htable, hexpected]
  effect {e slots u} h := by
    obtain ⟨-, -, hstarted, htable, hexpected⟩ := runEffect_outer e slots u
    rwa [SameRunParameters, hstarted, htable, hexpected]
  record h := by rwa [SameRunParameters, record_table, record_expected, record_started]

/-- Settles O37, by the parts of a step. -/
theorem runParametersAreConstant : Obligations.RunParametersAreConstant :=
  fun s _ hstep => (sameRunParameters_keptByParts s).step ⟨rfl, rfl, rfl⟩ hstep

/-! ### The low nibble of F (R13) -/

/-- An instruction other than an `XOR` or a `BIT` leaves F; those set it through flag writes, which clear the low nibble. -/
theorem exec_low {i : Instr} {s t : State} (hf : s.f &&& 0x0F#8 = 0#8) (hexec : exec i s = .next t) :
    t.f &&& 0x0F#8 = 0#8 := by
  rcases exec_cases hexec with ⟨_, -, rfl⟩ | ⟨_, -, rfl⟩ | ⟨_, -, rfl⟩ | ⟨_, -, rfl⟩ | ⟨_, -, rfl⟩ | ⟨_, -, rfl⟩ |
    ⟨-, rfl⟩ | ⟨-, rfl⟩ | ⟨-, rfl⟩ | ⟨-, rfl⟩ | ⟨-, rfl⟩ | ⟨_, -, rfl⟩ | ⟨_, _, -, rfl⟩
  iterate 5 · exact hf
  · split <;> exact hf
  iterate 3 · exact hf
  · rw [decHl_frame]; exact hf
  · exact hf
  iterate 2 · exact setFlag_low _ _ _

theorem bindResult_state {slots slots' : List Int} {s s' : State} {r : Except Fault Int}
    (h : bindResult slots s r = .ok (slots', s')) : s' = s := by
  cases r <;> cases h; rfl

theorem storeResult_f {slots slots' : List Int} {s s' : State} {r : Except Fault Memory}
    (h : storeResult slots s r = .ok (slots', s')) : s'.f = s.f := by
  cases r <;> cases h; rfl

/-- An operation of a written effect keeps the low nibble zero, whatever the memory. -/
theorem runOp_low {slots slots' : List Int} {s s' : State} {op : EffectOp} (hf : s.f &&& 0x0F#8 = 0#8)
    (h : runOp slots s op = .ok (slots', s')) : s'.f &&& 0x0F#8 = 0#8 := by
  cases op with
  | imm8 => rw [runOp, imm8_eq] at h; cases h; exact hf
  | imm16 =>
    rw [runOp, imm16_eq] at h
    by_cases hpc : s.pc = 0xFFFF#16
    · rw [if_pos hpc] at h; cases h
    · rw [if_neg hpc] at h; cases h; exact hf
  | readByte | readWord => rwa [bindResult_state h]
  | writeByte | writeWord => rwa [storeResult_f h]
  | setReg r v => cases h; exact writeReg_low hf r _
  | setPair p v => cases h; exact writeReg_low (writeReg_low hf _ _) _ _
  | setFlag fl v => cases h; exact setFlag_low s fl _
  | bind | setSp | setPc => cases h; exact hf

theorem runEffect_low (e : Effect) (slots : List Int) {s : State} (hf : s.f &&& 0x0F#8 = 0#8) :
    (runEffect e slots s).f &&& 0x0F#8 = 0#8 := by
  induction e generalizing slots s with
  | done => exact hf
  | andThen op next ih =>
    cases h : runOp slots s op with
    | error fault => simp only [runEffect, h]; exact hf
    | ok p => rw [runEffect_andThen h]; exact ih p.1 (runOp_low hf h)
  | branch cond yes no ihyes ihno =>
    by_cases hc : evalExpr slots s cond = 0
    · simpa only [runEffect, if_pos hc] using ihno slots hf
    · simpa only [runEffect, if_neg hc] using ihyes slots hf

theorem low_keptByParts : KeptByParts fun s => s.f &&& 0x0F#8 = 0#8 where
  advance h := h
  raise h := h
  exec h hexec := exec_low h hexec
  effect h := runEffect_low _ _ h
  record h := by rwa [record_f]

/-! ### The launch (R208) -/

/-- An operation of the host keeps what it keeps on a Machine with no fatal latched (R225). -/
theorem hostDo_keeps {P : State → Prop} {s : State} {op : State → State} (hs : P s) (hop : P (op s)) : P (s.hostDo op) := by
  rw [State.hostDo]
  split
  · exact hs
  · exact hop

theorem State.Inv.hostRegister {s : State} (h : s.Inv) (row : TableRow) : (s.hostRegister row).Inv :=
  hostDo_keeps h (h.of_log_eq h.fLow h.memWf rfl rfl)

theorem State.Inv.hostLoad {s : State} (h : s.Inv) (bytes : List Byte) (offset : Int) : (s.hostLoad bytes offset).Inv := by
  refine hostDo_keeps h ?_
  cases hload : load s.mem bytes offset with
  | error fault => exact h.raise fault
  | ok m => exact h.of_log_eq h.fLow (load_wf h.memWf hload) rfl rfl

theorem State.Inv.hostPreset {s : State} (h : s.Inv) (p : Preset) : (s.hostPreset p).Inv := by
  refine hostDo_keeps h ?_
  cases p with
  | reg r v =>
    exact h.of_log_eq (writeReg_low h.fLow r v) (by simpa [applyPreset] using h.memWf) (writeReg_trace s r v) (writeReg_count s r v)
  | pair p v =>
    exact h.of_log_eq (writeReg_low (writeReg_low h.fLow _ _) _ _) (by simpa [applyPreset] using h.memWf)
      (writePair_trace s p v) (writePair_count s p v)
  | sp v => exact h.of_log_eq h.fLow h.memWf rfl rfl
  | pc v => exact h.of_log_eq h.fLow h.memWf rfl rfl
  | flag fl b => exact h.of_log_eq (setFlag_low s fl b) h.memWf rfl rfl

theorem State.Inv.hostSupplyExpected {s : State} (h : s.Inv) (entries : List Text) : (s.hostSupplyExpected entries).Inv :=
  hostDo_keeps h (h.of_log_eq h.fLow h.memWf rfl rfl)

theorem State.Inv.hostRecord {s : State} (h : s.Inv) : s.hostRecord.Inv :=
  hostDo_keeps h (h.traceRecord (snapshot_length s))

theorem State.Inv.hostStartup {s : State} (h : s.Inv) : s.hostStartup.Inv := h.of_log_eq h.fLow h.memWf rfl rfl

/-- What each operation of the host keeps holds after them all, the failing loads included. -/
theorem launch_inv (q : Launch) : (launch q).Inv := by
  have constructed : State.construct.Inv := ⟨rfl, rfl, rfl, nofun⟩
  have registered := List.foldlRecOn q.rows State.hostRegister constructed fun _ h row _ => h.hostRegister row
  have loaded := List.foldlRecOn q.loads (fun s p => s.hostLoad p.1 p.2) registered fun _ h p _ => h.hostLoad p.1 p.2
  have preset := List.foldlRecOn q.presets State.hostPreset loaded fun _ h p _ => h.hostPreset p
  rw [launch]
  refine State.Inv.hostStartup ?_
  cases q.expected <;> cases q.recordEntry
  · exact preset
  · exact preset.hostRecord
  · exact preset.hostSupplyExpected _
  · exact (preset.hostSupplyExpected _).hostRecord

/-! ### AF where the low nibble of F is zero -/

theorem readPair_af_low {s : State} (hf : s.f &&& 0x0F#8 = 0#8) : s.readPair .af &&& 0x000F#16 = 0#16 := by
  calc s.readPair .af &&& 0x000F#16
      = wordOf (s.a &&& 0x00#8) (s.f &&& 0x0F#8) := wordOf_and s.a s.f 0x00#8 0x0F#8
    _ = 0#16 := by rw [hf, BitVec.and_zero]; rfl

/-- The last digit of the AF field is that of F's low nibble (R182). -/
theorem snapshot_af_last (s : State) : (snapshot s)[6]? = some (hexDigit (s.f.extractLsb' 0 4)) := by
  have hlow : (s.readPair .af).extractLsb' 0 4 = s.f.extractLsb' 0 4 := BitVec.extractLsb'_append_eq_of_add_le (by decide)
  rw [← hlow]
  rfl

theorem extractLsb'_low {v : Byte} (h : v &&& 0x0F#8 = 0#8) : v.extractLsb' 0 4 = 0#4 := by
  have bits : ∀ x : Byte, x &&& 0x0F#8 = 0#8 → x.extractLsb' 0 4 = 0#4 := by decide
  exact bits v h

/-- Settles O3: every write of F masks or clears the low nibble; a step keeps it by its parts, a launch by its operations. -/
theorem lowNibbleOfFReadsZero : Obligations.LowNibbleOfFReadsZero := by
  refine ⟨fun s v => rfl, fun s v => rfl, fun s fl b => setFlag_low s fl b, rfl, fun s t hf hstep => low_keptByParts.step hf hstep,
    fun q => (launch_inv q).fLow, fun s hf => ⟨readPair_af_low hf, ?_⟩⟩
  rw [snapshot_af_last, extractLsb'_low (v := s.f) hf]
  rfl

/-! ### What an instruction writes (R22) -/

@[simp] theorem advancePc_zero (s : State) : s.advancePc 0 = s := by simp [State.advancePc]

/-- Another immediate in place of an instruction's own can be undone: only the immediate differs. -/
theorem exists_withOperand_withOperand (i : Instr) (lo hi : Byte) : ∃ lo' hi', i = (i.withOperand lo hi).withOperand lo' hi' := by
  have word : ∀ nn : Word, nn = wordOf (highByte nn) (lowByte nn) := fun nn => (wordOf_high_low nn).symm
  cases i with
  | ldBcNn nn | ldDeNn nn | ldHlNn nn | ldSpNn nn | jpA16 nn => exact ⟨_, _, congrArg _ (word nn)⟩
  | jrNzR8 r8 => exact ⟨r8, 0, rfl⟩
  | _ => exact ⟨0, 0, rfl⟩

/-- `Execute` of a table entry's instruction: the fatal of its immediate, or the meaning of the instruction `j` read, whose immediate
alone differs from the entry's. -/
theorem execute_instr_cases {i : Instr} {s t : State} (h : execute (.instr i) s = .next t) :
    t = s.raise (.outOfBounds 0xFFFF 2) ∨
    ∃ j lo hi, i = j.withOperand lo hi ∧ exec j (s.advancePc j.operandBytes) = .next t := by
  rw [execute_instr] at h
  by_cases hfails : ImmediateFails i s
  · rw [if_pos hfails] at h
    cases h
    exact .inl rfl
  · rw [if_neg hfails] at h
    obtain ⟨lo, hi, hi'⟩ := exists_withOperand_withOperand i (s.byteAt s.pc) (s.byteAt (s.pc + 1))
    exact .inr ⟨_, lo, hi, hi', by rwa [operandBytes_withOperand]⟩

/-- Settles O27, by the thirteen effects an instruction can have (`exec_cases`). -/
theorem registersAreWrittenOnlyByTheirInstructions : Obligations.RegistersAreWrittenOnlyByTheirInstructions := by
  intro i s t h
  rcases execute_instr_cases h with rfl | ⟨j, lo, hi, rfl, hexec⟩
  · simp
  rcases exec_cases hexec with ⟨nn, rfl, rfl⟩ | ⟨nn, rfl, rfl⟩ | ⟨nn, rfl, rfl⟩ | ⟨nn, rfl, rfl⟩ | ⟨nn, rfl, rfl⟩ | ⟨d, rfl, rfl⟩ |
    ⟨rfl, rfl⟩ | ⟨rfl, rfl⟩ | ⟨rfl, rfl⟩ | ⟨rfl, rfl⟩ | ⟨rfl, rfl⟩ | ⟨r, hform, rfl⟩ | ⟨b, r, hform, rfl⟩
  · simp [writePair_bc, Instr.withOperand]
  · simp [writePair_de, Instr.withOperand]
  · simp [writePair_hl, Instr.withOperand]
  · simp [Instr.withOperand]
  · simp [Instr.withOperand]
  · split <;> simp [Instr.withOperand]
  · simp [Instr.withOperand, Instr.operandBytes, storeForms]
  · simp [Instr.withOperand, Instr.operandBytes, storeForms]
  · rw [incHl_frame]; simp [Instr.withOperand, Instr.operandBytes, storeForms]
  · rw [decHl_frame]; simp [Instr.withOperand, Instr.operandBytes, storeForms]
  · simp [Instr.operandBytes]
  · obtain ⟨h0, -⟩ := xorForms_pseudocode _ hform
    have hmem := List.mem_map_of_mem (f := Prod.fst) hform
    rw [withOperand_of_none h0, h0, advancePc_zero, xorEffect_frame]
    simp [-List.mem_map, hmem]
  · obtain ⟨h0, -⟩ := bitForms_pseudocode _ hform
    have hmem := List.mem_map_of_mem (f := Prod.fst) hform
    rw [withOperand_of_none h0, h0, advancePc_zero, bitEffect_frame]
    simp [-List.mem_map, hmem]

/-! ### `pc` after a step (R18) -/

/-- Of the meanings, those of the two jumps alone write `pc`. -/
theorem exec_pc {i : Instr} {s t : State} (h : exec i s = .next t) :
    (∃ a16, i = .jpA16 a16) ∨ (∃ r8, i = .jrNzR8 r8) ∨ t.pc = s.pc := by
  rcases exec_cases h with ⟨_, -, rfl⟩ | ⟨_, -, rfl⟩ | ⟨_, -, rfl⟩ | ⟨_, -, rfl⟩ | ⟨a16, rfl, -⟩ | ⟨r8, rfl, -⟩ |
    ⟨-, rfl⟩ | ⟨-, rfl⟩ | ⟨-, rfl⟩ | ⟨-, rfl⟩ | ⟨-, rfl⟩ | ⟨_, -, rfl⟩ | ⟨_, _, -, rfl⟩
  iterate 4 · exact .inr (.inr rfl)
  · exact .inl ⟨a16, rfl⟩
  · exact .inr (.inl ⟨r8, rfl⟩)
  iterate 3 · exact .inr (.inr rfl)
  · exact .inr (.inr (by rw [decHl_frame]))
  iterate 3 · exact .inr (.inr rfl)

theorem signExtend16_eq (d : Byte) : signExtend16 d = BitVec.ofNat 16 (displacement d) := by
  have hd := d.isLt
  have hmsb := BitVec.msb_eq_decide d
  apply BitVec.eq_of_toNat_eq
  rw [signExtend16, BitVec.toNat_signExtend, hmsb, BitVec.toNat_setWidth, BitVec.toNat_ofNat, displacement]
  by_cases h : d.toNat < 128
  · simp [h]
  · simp [h, Nat.le_of_not_lt h]; omega

/-- The target of a taken `JR NZ`, as a number modulo 65536 (D8). -/
theorem add_signExtend16 (pc : Word) (k : Nat) (d : Byte) :
    pc + BitVec.ofNat 16 k + signExtend16 d = BitVec.ofNat 16 (pc.toNat + k + displacement d) := by
  rw [signExtend16_eq, BitVec.ofNat_add, BitVec.ofNat_add, BitVec.ofNat_toNat, BitVec.setWidth_eq]

theorem decodeOperand_ok {i j : Instr} {bytes rest : List Byte} (h : decodeOperand i bytes = .ok (j, rest)) :
    ∃ lo hi, j = i.withOperand lo hi := by
  unfold decodeOperand at h
  split at h <;> cases h <;> exact ⟨_, _, rfl⟩

/-- A decoded instruction is that of an entry of the bank looked in, with its immediate. -/
theorem decodeIn_ok {t : OpcodeTable} {bank : Bank} {opcode : Byte} {bytes rest : List Byte} {j : Instr}
    (h : decodeIn t bank opcode bytes = .ok (j, rest)) :
    ∃ row ∈ t, row.bank = bank ∧ ∃ i lo hi, row.effect = .instr i ∧ j = i.withOperand lo hi := by
  cases hl : lookup t bank opcode with
  | none => simp [decodeIn, hl] at h
  | some row =>
    obtain ⟨hmem, hbank, -⟩ := lookup_some hl
    cases he : row.effect with
    | written e => simp [decodeIn, hl, he] at h
    | instr i =>
      obtain ⟨lo, hi, hj⟩ := decodeOperand_ok (by simpa only [decodeIn, hl, he] using h)
      exact ⟨row, hmem, hbank, i, lo, hi, he, hj⟩

/-- The encoding of an entry's instruction begins with the lead byte of the entry's bank, or with none in the default bank (R72). -/
def leadFits (row : TableRow) : Bool :=
  match row.effect with
  | .instr i => prefixBank ((encode i).headD 0) == if row.bank = .default then none else some row.bank
  | .written _ => true

theorem baselineTable_leadFits : ∀ row ∈ baselineTable, leadFits row = true := by decide

theorem headD_encode_withOperand (i : Instr) (lo hi : Byte) : (encode (i.withOperand lo hi)).headD 0 = (encode i).headD 0 := by
  cases i <;> rfl

theorem prefixBank_ne_default (b0 : Byte) : prefixBank b0 ≠ some .default := by
  unfold prefixBank
  repeat' split
  all_goals simp

/-- An instruction decoded over the baseline table has the bank of the byte it begins with. -/
theorem prefixBank_of_decode {b0 : Byte} {bytes rest : List Byte} {j : Instr} (h : decode (b0 :: bytes) = .ok (j, rest)) :
    prefixBank ((encode j).headD 0) = prefixBank b0 := by
  have lead : ∀ {bank opcode bytes'}, decodeIn baselineTable bank opcode bytes' = .ok (j, rest) →
      prefixBank ((encode j).headD 0) = if bank = .default then none else some bank := fun {bank _ _} hin => by
    obtain ⟨row, hmem, rfl, i, lo, hi, he, rfl⟩ := decodeIn_ok hin
    have hfits := baselineTable_leadFits row hmem
    rw [headD_encode_withOperand]
    simpa [leadFits, he] using hfits
  rw [decode] at h
  cases hp : prefixBank b0 with
  | none =>
    exact lead (opcode := b0) (bytes' := bytes) (by simpa only [decodeWith, hp] using h)
  | some bank =>
    cases bytes with
    | nil => simp [decodeWith, hp] at h
    | cons opcode bytes' =>
      have hne : bank ≠ .default := fun hb => prefixBank_ne_default b0 (hb ▸ hp)
      rw [lead (by simpa only [decodeWith, hp] using h), if_neg hne]

/-- The bytes before an instruction's immediate, and the immediate, are its length (R71). -/
theorem headerBytes_add_operandBytes {s : State} {i : Instr} {rest : List Byte} (h : decode s.window = .ok (i, rest)) :
    headerBytes (s.byteAt s.pc) + i.operandBytes = i.length := by
  rw [Instr.length, headerBytes, headerBytes, prefixBank_of_decode h]

/-- A step on a decoded instruction that ends with no fatal has run the instruction's meaning with `pc` past the whole instruction. -/
theorem completed_step {s t : State} {i : Instr} {rest : List Byte} (hs : s.fatal = none) (htable : s.table = baselineTable)
    (hdecode : decodeWith s.table s.window = .ok (i, rest)) (hstep : step s = .next t) (ht : t.fatal = none) :
    ∃ u, exec i (s.advancePc i.length) = .next u ∧ t = record u := by
  rcases step_cases hs hstep with ⟨j, rest', hj, ⟨-, rfl⟩ | ⟨-, u, hexec, rfl⟩⟩ | ⟨_, _, _, _, -, -, hd, -⟩ | ⟨_, _, hd, -⟩
  · cases ht
  · obtain ⟨rfl, rfl⟩ : j = i ∧ rest' = rest := by simpa [hdecode] using hj.symm
    rw [State.atEffect, advancePc_add, headerBytes_add_operandBytes (by rwa [decode, ← htable])] at hexec
    exact ⟨u, hexec, rfl⟩
  · rw [hdecode] at hd; cases hd
  · rw [hdecode] at hd; cases hd

/-- Settles O35: the jumps write `pc`, the other meanings leave it past the instruction. -/
theorem pcAfterACompletedStep : Obligations.PcAfterACompletedStep := by
  intro s t i rest hs htable hdecode hstep ht
  obtain ⟨u, hexec, rfl⟩ := completed_step hs htable hdecode hstep ht
  rw [record_pc]
  refine ⟨?_, ?_, fun hjp hjr => ?_⟩
  · rintro a16 rfl
    cases hexec
    rfl
  · rintro r8 rfl
    cases hexec
    have hz : (s.advancePc (Instr.jrNzR8 r8).length).readFlag .z = s.readFlag .z := rfl
    rw [hz]
    split
    · rfl
    · exact add_signExtend16 s.pc 2 r8
  · rcases exec_pc hexec with ⟨a16, rfl⟩ | ⟨r8, rfl⟩ | hpc
    · exact absurd rfl (hjp a16)
    · exact absurd rfl (hjr r8)
    · rw [hpc, advancePc_pc]

end Sys2Proof.Machine
end
section
/-! PROOFS. Memory (spec/20_memory.md). First what each accessor answers, inside the address space and outside it (R44 to R48), and
from that the statements about one access. Then that the canonical form of the 65536 bytes is unique (R40). Last what a step can do
to memory and to the latch: the stores alone change a byte (R42, R130), what they wrote is what the next fetch reads (R58), and an
`OutOfBounds` is that of a byte or word access (R43, R48). -/

open Sys2Proof.Claims

namespace Sys2Proof.Machine

/-! ### The accessors inside the address space and outside it -/

theorem inBounds_of_le {addr : Int} {size : Nat} (h0 : 0 ≤ addr) (h1 : addr + size ≤ 65536) : inBounds addr size = true :=
  (inBounds_iff addr size).2 ⟨h0, h1⟩

theorem not_inBounds {addr : Int} {size : Nat} (h : addr < 0 ∨ 65536 < addr + size) : ¬inBounds addr size = true := by
  rw [inBounds_iff]; omega

theorem readByte_inside {m : Memory} {addr : Int} (h : inBounds addr 1 = true) :
    readByte m addr = .ok (Memory.peek m addr.toNat) := if_pos h

theorem readByte_outside {m : Memory} {addr : Int} (h : ¬inBounds addr 1 = true) :
    readByte m addr = .error (.outOfBounds addr 1) := if_neg h

theorem writeByte_inside {m : Memory} {addr : Int} (h : inBounds addr 1 = true) (v : Byte) :
    writeByte m addr v = .ok (Memory.poke m addr.toNat v) := if_pos h

theorem writeByte_outside {m : Memory} {addr : Int} (h : ¬inBounds addr 1 = true) (v : Byte) :
    writeByte m addr v = .error (.outOfBounds addr 1) := if_neg h

theorem readWord_inside {m : Memory} {addr : Int} (h : inBounds addr 2 = true) :
    readWord m addr = .ok (wordOf (Memory.peek m (addr.toNat + 1)) (Memory.peek m addr.toNat)) := if_pos h

theorem readWord_outside {m : Memory} {addr : Int} (h : ¬inBounds addr 2 = true) :
    readWord m addr = .error (.outOfBounds addr 2) := if_neg h

theorem writeWord_inside {m : Memory} {addr : Int} (h : inBounds addr 2 = true) (v : Word) :
    writeWord m addr v = .ok (Memory.poke (Memory.poke m addr.toNat (lowByte v)) (addr.toNat + 1) (highByte v)) := if_pos h

theorem writeWord_outside {m : Memory} {addr : Int} (h : ¬inBounds addr 2 = true) (v : Word) :
    writeWord m addr v = .error (.outOfBounds addr 2) := if_neg h

theorem load_inside {m : Memory} {bytes : List Byte} {offset : Int} (h : inBounds offset bytes.length = true) :
    load m bytes offset = .ok (Memory.pokeAll m offset.toNat bytes) := if_pos h

theorem load_outside {m : Memory} {bytes : List Byte} {offset : Int} (h : ¬inBounds offset bytes.length = true) :
    load m bytes offset = .error (.outOfBounds offset bytes.length) := if_neg h

/-! ### One byte (R41, R44, R45) -/

/-- Settles O5: both accessors ask for one byte inside the address space; inside, the write is a `poke`. -/
theorem byteAccessFailsOnlyOutOfBounds : Obligations.ByteAccessFailsOnlyOutOfBounds := by
  refine fun m addr v => ⟨fun hout => ?_, fun h0 h1 => ?_⟩
  · have hb : ¬inBounds addr 1 = true := not_inBounds (by omega)
    exact ⟨readByte_outside hb, writeByte_outside hb v⟩
  · have hb : inBounds addr 1 = true := inBounds_of_le h0 (by omega)
    exact ⟨readByte_inside hb, fun hm => ⟨_, writeByte_inside hb v, fun x => peek_poke hm _ x v⟩⟩

theorem inBounds_of_writeByte {m m' : Memory} {addr : Int} {v : Byte} (h : writeByte m addr v = .ok m') :
    inBounds addr 1 = true := by
  by_contra hb
  rw [writeByte_outside hb] at h
  cases h

/-- Read after write through the accessors, at any integer address. -/
theorem readByte_of_writeByte {m m' : Memory} {addr : Int} {v : Byte} (hm : Memory.wf m = true)
    (h : writeByte m addr v = .ok m') (addr' : Int) :
    readByte m' addr' = if addr' = addr then .ok v else readByte m addr' := by
  have hb := inBounds_of_writeByte h
  obtain rfl : Memory.poke m addr.toNat v = m' := by simpa [writeByte_inside hb] using h
  by_cases heq : addr' = addr
  · rw [if_pos heq, heq, readByte_inside hb, peek_poke hm, if_pos rfl]
  · rw [if_neg heq]
    by_cases hb' : inBounds addr' 1 = true
    · have hne : addr'.toNat ≠ addr.toNat := by
        obtain ⟨h0, -⟩ := (inBounds_iff _ _).1 hb
        obtain ⟨h0', -⟩ := (inBounds_iff _ _).1 hb'
        omega
      rw [readByte_inside hb', readByte_inside hb', peek_poke hm, if_neg hne]
    · rw [readByte_outside hb', readByte_outside hb']

/-- Settles O6, by read after write. -/
theorem readReturnsTheByteLastWritten : Obligations.ReadReturnsTheByteLastWritten := by
  have hb : ∀ {addr : Int}, 0 ≤ addr → addr < 65536 → inBounds addr 1 = true := fun h0 h1 => inBounds_of_le h0 (by omega)
  exact ⟨fun addr h0 h1 => readByte_inside (hb h0 h1), fun m m' addr addr' v hm h => readByte_of_writeByte hm h addr',
    fun m addr v h0 h1 => ⟨⟨_, readByte_inside (hb h0 h1)⟩, _, writeByte_inside (hb h0 h1) v⟩⟩

/-! ### Two bytes and many (R46 to R49) -/

/-- Settles O7: the two bytes of a word are those at its address and after it; the example by what a load leaves at each address. -/
theorem readWordIsLittleEndian : Obligations.ReadWordIsLittleEndian := by
  refine ⟨fun m addr hout => readWord_outside (not_inBounds (by omega)), fun m addr h0 h1 =>
    ⟨_, readWord_inside (inBounds_of_le h0 (by omega)), lowByte_wordOf _ _, highByte_wordOf _ _⟩, fun m hm => ?_⟩
  have hload : load m [0x01, 0x02, 0x03] 10 = .ok (Memory.pokeAll m 10 [0x01, 0x02, 0x03]) := load_inside (by decide)
  have hpeek : ∀ k, k < 3 → Memory.peek (Memory.pokeAll m 10 [0x01, 0x02, 0x03]) (10 + k) = [0x01, 0x02, 0x03].getD k 0 :=
    fun k hk => by
      rw [peek_pokeAll hm _ (by decide), if_pos ⟨Nat.le_add_right 10 k, Nat.add_lt_add_left hk 10⟩, Nat.add_sub_cancel_left]
  refine ⟨_, hload, (readWord_inside (by decide)).trans ?_, (readByte_inside (by decide)).trans ?_⟩
  · exact congrArg Except.ok (congrArg₂ wordOf (hpeek 1 (by decide)) (hpeek 0 (by decide)))
  · exact congrArg Except.ok (hpeek 2 (by decide))

/-- The byte at an address after a word write: of the two writes only the one at that address counts. -/
theorem peek_poke_word {m : Memory} (hm : Memory.wf m = true) {a : Nat} (ha : a < 65536) (lo hi : Byte) (x : Nat) :
    Memory.peek (Memory.poke (Memory.poke m a lo) (a + 1) hi) x =
      if x = a then lo else if x = a + 1 then hi else Memory.peek m x := by
  rw [peek_poke (poke_wf hm ha lo), peek_poke hm]
  by_cases hx : x = a
  · rw [if_pos hx, if_pos hx, if_neg (by omega)]
  · rw [if_neg hx, if_neg hx]

/-- Settles O8, by the bytes after the two writes. -/
theorem writeWordIsLittleEndian : Obligations.WriteWordIsLittleEndian := by
  refine fun m addr v hm => ⟨fun hout => writeWord_outside (not_inBounds (by omega)) v, fun h0 h1 => ?_⟩
  have hb : inBounds addr 2 = true := inBounds_of_le h0 (by omega)
  have hpeek := peek_poke_word hm (a := addr.toNat) (by omega) (lowByte v) (highByte v)
  refine ⟨_, writeWord_inside hb v, ?_, hpeek⟩
  rw [readWord_inside hb, hpeek, hpeek, if_pos rfl, if_neg (Nat.succ_ne_self _), if_pos rfl, wordOf_high_low]

/-- Settles O9, by read after a copy. -/
theorem loadCopiesAllOrFails : Obligations.LoadCopiesAllOrFails :=
  fun _ bytes _ hm => ⟨fun hout => load_outside (not_inBounds hout), fun h0 h1 =>
    ⟨_, load_inside (inBounds_of_le h0 h1), peek_pokeAll hm bytes (by omega)⟩⟩

/-! ### The canonical form (R40) -/

/-- Settles O10, by what each accessor that writes keeps. -/
theorem accessorsKeepTheCanonicalForm : Obligations.AccessorsKeepTheCanonicalForm :=
  fun _ _ hm => ⟨fun _ _ => writeByte_wf hm, fun _ _ => writeWord_wf hm, fun _ _ => load_wf hm⟩

/-- A canonical memory lists its lowest address that does not read 0x00 first: with the same bytes, the first listed address of one is
not above that of the other. -/
theorem head_le_of_peek_eq {lo lo' k k' : Nat} {v v' : Byte} {m m' : Memory} (hm : Memory.wfFrom lo ((k, v) :: m) = true)
    (hm' : Memory.wfFrom lo' ((k', v') :: m') = true)
    (h : ∀ x, Memory.peek ((k, v) :: m) x = Memory.peek ((k', v') :: m') x) : k ≤ k' := by
  by_contra hlt
  obtain ⟨-, hk, hv, htail⟩ := wfFrom_cons.1 hm
  obtain ⟨-, -, hv', -⟩ := wfFrom_cons.1 hm'
  have hzero : Memory.peek ((k, v) :: m) k' = 0#8 :=
    peek_of_wfFrom (wfFrom_cons.2 ⟨le_refl k, hk, hv, htail⟩) (by omega)
  rw [h, peek_cons, if_pos rfl] at hzero
  exact hv' hzero

theorem eq_nil_of_peek_eq_zero {lo : Nat} {m : Memory} (hm : Memory.wfFrom lo m = true)
    (h : ∀ x, Memory.peek m x = 0#8) : m = [] := by
  cases m with
  | nil => rfl
  | cons p m =>
    obtain ⟨k, v⟩ := p
    obtain ⟨-, -, hv, -⟩ := wfFrom_cons.1 hm
    exact absurd (by simpa [peek_cons] using h k) hv

theorem eq_of_peek_eq {lo lo' : Nat} {m m' : Memory} (hm : Memory.wfFrom lo m = true) (hm' : Memory.wfFrom lo' m' = true)
    (h : ∀ x, Memory.peek m x = Memory.peek m' x) : m = m' := by
  induction m generalizing lo lo' m' with
  | nil => exact (eq_nil_of_peek_eq_zero hm' fun x => (h x).symm).symm
  | cons p m ih =>
    cases m' with
    | nil => exact eq_nil_of_peek_eq_zero hm h
    | cons p' m' =>
      obtain ⟨k, v⟩ := p
      obtain ⟨k', v'⟩ := p'
      obtain rfl : k = k' := le_antisymm (head_le_of_peek_eq hm hm' h) (head_le_of_peek_eq hm' hm fun x => (h x).symm)
      obtain rfl : v = v' := by simpa [peek_cons] using h k
      obtain ⟨-, -, -, htail⟩ := wfFrom_cons.1 hm
      obtain ⟨-, -, -, htail'⟩ := wfFrom_cons.1 hm'
      have hrest : ∀ x, Memory.peek m x = Memory.peek m' x := fun x => by
        by_cases hx : k = x
        · rw [peek_of_wfFrom htail (by omega), peek_of_wfFrom htail' (by omega)]
        · simpa only [peek_cons, if_neg hx] using h x
      rw [ih htail htail' hrest]

/-- Settles O11, by induction on the listed addresses. -/
theorem equalBytesAreEqualMemories : Obligations.EqualBytesAreEqualMemories :=
  fun _ _ hm hm' h => eq_of_peek_eq hm hm' h

/-! ### What a step does to memory (R42, R58) -/

/-- The pair that holds a store's address (R131 to R134). -/
def storePair (i : Instr) : Pair := if i = .ldIndBcA then .bc else if i = .ldIndDeA then .de else .hl

/-- A store writes A at the address in its pair, and no other instruction touches memory. -/
theorem exec_mem {i : Instr} {s t : State} (h : exec i s = .next t) :
    t.mem = if i ∈ storeForms then Memory.poke s.mem (s.readPair (storePair i)).toNat s.a else s.mem := by
  have xorNotStore : ∀ q ∈ xorForms, q.1 ∉ storeForms := by decide
  have bitNotStore : ∀ q ∈ bitForms, q.1 ∉ storeForms := by decide
  rcases exec_cases h with ⟨_, rfl, rfl⟩ | ⟨_, rfl, rfl⟩ | ⟨_, rfl, rfl⟩ | ⟨_, rfl, rfl⟩ | ⟨_, rfl, rfl⟩ | ⟨_, rfl, rfl⟩ |
    ⟨rfl, rfl⟩ | ⟨rfl, rfl⟩ | ⟨rfl, rfl⟩ | ⟨rfl, rfl⟩ | ⟨rfl, rfl⟩ | ⟨_, hform, rfl⟩ | ⟨_, _, hform, rfl⟩
  iterate 5 · simp [storeForms]
  · split <;> simp [storeForms]
  iterate 3 · rfl
  · rw [decHl_frame]; rfl
  · rfl
  · rw [if_neg (xorNotStore _ hform), xorEffect_frame]
  · rw [if_neg (bitNotStore _ hform), bitEffect_frame]

@[simp] theorem record_mem (s : State) : (record s).mem = s.mem := by rw [record_frame]

theorem instr_of_instructionsOnly {t : OpcodeTable} (ht : instructionsOnly t = true) {row : TableRow} (hrow : row ∈ t) :
    ∃ i, row.effect = .instr i := by
  have h := List.all_eq_true.1 ht row hrow
  cases he : row.effect with
  | instr i => exact ⟨i, rfl⟩
  | written e => simp [he] at h

/-- Settles O36: of the ways a step ends only a completed store leaves another memory, and that by one `poke`. -/
theorem onlyStoresChangeMemory : Obligations.OnlyStoresChangeMemory := by
  intro s t hm htable hstep x hx
  by_cases hs : s.fatal = none
  · rcases step_cases hs hstep with ⟨i, rest, hdecode, ⟨-, rfl⟩ | ⟨-, u, hexec, rfl⟩⟩ | ⟨row, e, _, _, hlookup, he, -⟩ |
      ⟨_, _, -, rfl⟩
    · exact absurd rfl hx
    · rw [record_mem, exec_mem hexec] at hx
      by_cases hstore : i ∈ storeForms
      · rw [if_pos hstore] at hx
        refine ⟨i, rest, hdecode, hstore, ?_⟩
        by_contra hne
        exact hx ((peek_poke hm _ x _).trans (if_neg hne))
      · rw [if_neg hstore] at hx
        exact absurd rfl hx
    · obtain ⟨i, hi⟩ := instr_of_instructionsOnly htable (lookup_some hlookup).1
      rw [hi] at he
      cases he
    · exact absurd rfl hx
  · rw [step_latched hs] at hstep
    cases hstep
    exact absurd rfl hx

theorem byteAt_of_exec_store {i : Instr} {s t : State} (hi : i ∈ storeForms) (hm : Memory.wf s.mem = true)
    (h : exec i s = .next t) : t.byteAt (s.readPair (storePair i)) = s.a := by
  rw [State.byteAt, exec_mem h, if_pos hi, peek_poke hm, if_pos rfl]

/-- A fetch from the address a store wrote reads A. -/
theorem fetchByte_of_exec_store {i : Instr} {s t : State} (hi : i ∈ storeForms) (hm : Memory.wf s.mem = true)
    (h : exec i s = .next t) :
    fetchByte { t with pc := s.readPair (storePair i) } = .ok (s.a, { t with pc := s.readPair (storePair i) + 1 }) := by
  rw [fetchByte_eq, ← byteAt_of_exec_store hi hm h]
  rfl

/-- Settles O39: each store has put A where its pair points. -/
theorem storedByteIsFetched : Obligations.StoredByteIsFetched :=
  fun _ _ hm =>
    ⟨fun h => ⟨byteAt_of_exec_store (i := .ldIndBcA) (by decide) hm h, fetchByte_of_exec_store (i := .ldIndBcA) (by decide) hm h⟩,
      fetchByte_of_exec_store (i := .ldIndDeA) (by decide) hm, fetchByte_of_exec_store (i := .ldIndHlIncA) (by decide) hm,
      fetchByte_of_exec_store (i := .ldIndHlDecA) (by decide) hm⟩

/-! ### The refusals of a step (R43, R48, R222) -/

/-- A record latches no `OutOfBounds` of its own (R183). -/
theorem fatal_of_record_outOfBounds {s : State} {addr : Int} {size : Nat}
    (h : (record s).fatal = some (.outOfBounds addr size)) : s.fatal = some (.outOfBounds addr size) := by
  rcases record_cases s with heq | heq
  · rwa [heq] at h
  · rcases traceRecord_cases (snapshot s) s with hlog | ⟨_, -, -, hlog⟩ <;> rw [heq, hlog] at h
    · exact h
    · cases h

/-- The `OutOfBounds` in the latch of a step's end is that of a refused byte or word access. -/
theorem refusedAccess_of_step {s t : State} {addr : Int} {size : Nat} (hs : s.fatal = none) (hstep : step s = .next t)
    (ht : t.fatal = some (.outOfBounds addr size)) : RefusedAccess (.outOfBounds addr size) := by
  rcases step_cases hs hstep with ⟨i, _, -, ⟨-, rfl⟩ | ⟨-, u, hexec, rfl⟩⟩ | ⟨_, e, _, _, -, -, -, rfl⟩ | ⟨_, _, -, rfl⟩
  · cases ht
    exact ⟨_, _, rfl, .inr rfl, by omega⟩
  · obtain ⟨-, -, hfatal, -⟩ := exec_outer hexec
    have hnone : u.fatal = none := hfatal.trans hs
    rw [fatal_of_record_outOfBounds ht] at hnone
    cases hnone
  · have hrun := fatal_of_record_outOfBounds ht
    rcases runEffect_fatal e [] s.atEffect with hsame | ⟨fault, hraised, hrefused⟩
    · have hnone : (runEffect e [] s.atEffect).fatal = none := hsame.trans hs
      rw [hrun] at hnone
      cases hnone
    · rw [hrun] at hraised
      cases hraised
      exact hrefused
  · cases ht

/-- Settles O57, by the ways a step ends. -/
theorem stepRefusesOnlyByteAndWordAccesses : Obligations.StepRefusesOnlyByteAndWordAccesses := by
  intro s t addr size hs hstep ht
  obtain ⟨_, _, heq, hsize, hout⟩ := refusedAccess_of_step hs hstep ht
  cases heq
  exact ⟨hsize, hout⟩

end Sys2Proof.Machine
end
section
/-! PROOFS. Encoding (spec/30_encoding.md). The bytes of an instruction are the lead byte of its bank, its opcode byte and its immediate
(R71, R72); each of the three is taken off by one stage of the decoder, in both directions: resolution of the bank, lookup, the immediate
(R73). The baseline table ties the stages together: its entries' instructions encode to their own keys. Then registration (R74), the
immediate as the accessors read it (R76, R77), and what a written effect can see (R75). -/

namespace Sys2Proof.Machine

/-! ### The immediate (R71, R73) -/

/-- The bytes of an immediate of `n` bytes, `lo` first. -/
def immediateBytes (n : Nat) (lo hi : Byte) : List Byte := [lo, hi].take n

theorem decodeOperand_immediateBytes (i : Instr) (lo hi : Byte) (rest : List Byte) :
    decodeOperand i (immediateBytes i.operandBytes lo hi ++ rest) = .ok (i.withOperand lo hi, rest) := by
  cases i <;> rfl

/-- An immediate that is decoded stands in front of the rest. -/
theorem immediateBytes_of_decodeOperand {i j : Instr} {bytes rest : List Byte} (h : decodeOperand i bytes = .ok (j, rest)) :
    ∃ lo hi, j = i.withOperand lo hi ∧ bytes = immediateBytes i.operandBytes lo hi ++ rest := by
  have hle := operandBytes_le i
  obtain hn | hn | hn : i.operandBytes = 0 ∨ i.operandBytes = 1 ∨ i.operandBytes = 2 := by omega
  all_goals rw [hn]; simp only [decodeOperand, hn] at h
  · cases h
    exact ⟨0, 0, rfl, rfl⟩
  · match bytes with
    | [] => cases h
    | lo :: _ => cases h; exact ⟨lo, 0, rfl, rfl⟩
  · match bytes with
    | [] | [_] => cases h
    | lo :: hi :: _ => cases h; exact ⟨lo, hi, rfl, rfl⟩

/-! ### The lead byte (R72) -/

/-- The lead byte of a bank; the default bank has none. -/
def leadBytes : Bank → List Byte
  | .default => []
  | .cb => [0xCB]
  | .dd => [0xDD]
  | .ed => [0xED]
  | .fd => [0xFD]

theorem leadBytes_of_prefixBank {b0 : Byte} {bank : Bank} (h : prefixBank b0 = some bank) : leadBytes bank = [b0] := by
  unfold prefixBank at h
  split_ifs at h with hcb hdd hed hfd <;> cases h <;> simp [leadBytes, *]

/-- The bytes of a key resolve to the key: after a lead byte any opcode byte, without one a byte that is no lead byte. -/
theorem decodeWith_leadBytes (t : OpcodeTable) {bank : Bank} {opcode : Byte}
    (h : bank = .default → prefixBank opcode = none) (rest : List Byte) :
    decodeWith t (leadBytes bank ++ opcode :: rest) = decodeIn t bank opcode rest := by
  cases bank with
  | default => simp [leadBytes, decodeWith, h rfl]
  | cb | dd | ed | fd => rfl

theorem leadBytes_of_decodeWith {t : OpcodeTable} {bytes : List Byte} {r : Instr × List Byte} (h : decodeWith t bytes = .ok r) :
    ∃ bank opcode bytes', bytes = leadBytes bank ++ opcode :: bytes' ∧ decodeIn t bank opcode bytes' = .ok r := by
  cases bytes with
  | nil => cases h
  | cons b0 bytes =>
    cases hp : prefixBank b0 with
    | none => exact ⟨.default, b0, bytes, rfl, by simpa only [decodeWith, hp] using h⟩
    | some bank =>
      cases bytes with
      | nil => simp [decodeWith, hp] at h
      | cons opcode bytes' =>
        exact ⟨bank, opcode, bytes', by rw [leadBytes_of_prefixBank hp]; rfl, by simpa only [decodeWith, hp] using h⟩

/-! ### Lookup (R74, R103) -/

theorem decodeIn_instr {t : OpcodeTable} {bank : Bank} {opcode : Byte} {row : TableRow} {i : Instr}
    (hl : lookup t bank opcode = some row) (he : row.effect = .instr i) (bytes : List Byte) :
    decodeIn t bank opcode bytes = decodeOperand i bytes := by
  simp only [decodeIn, hl, he]

/-- What is decoded under a key is the instruction of an entry that has the key. -/
theorem entry_of_decodeIn {t : OpcodeTable} {bank : Bank} {opcode : Byte} {bytes : List Byte} {r : Instr × List Byte}
    (h : decodeIn t bank opcode bytes = .ok r) :
    ∃ row ∈ t, row.bank = bank ∧ row.opcode = opcode ∧ ∃ i, row.effect = .instr i ∧ decodeOperand i bytes = .ok r := by
  cases hl : lookup t bank opcode with
  | none => simp [decodeIn, hl] at h
  | some row =>
    obtain ⟨hmem, hbank, hopcode⟩ := lookup_some hl
    cases he : row.effect with
    | written e => simp [decodeIn, hl, he] at h
    | instr i => exact ⟨row, hmem, hbank, hopcode, i, he, by rwa [decodeIn_instr hl he] at h⟩

theorem lookup_cons_of_key {row : TableRow} {bank : Bank} {opcode : Byte} (h : row.bank = bank ∧ row.opcode = opcode)
    (t : OpcodeTable) : lookup (row :: t) bank opcode = some row :=
  List.find?_cons_of_pos (hasKey_iff.2 h)

theorem lookup_cons_of_not_key {row : TableRow} {bank : Bank} {opcode : Byte} (h : ¬(row.bank = bank ∧ row.opcode = opcode))
    (t : OpcodeTable) : lookup (row :: t) bank opcode = lookup t bank opcode :=
  List.find?_cons_of_neg (mt hasKey_iff.1 h)

/-- In a table with no key twice, every entry is the one that lookup of its key finds. -/
theorem lookup_of_mem {t : OpcodeTable} (ht : tableWellFormed t = true) {row : TableRow} (h : row ∈ t) :
    lookup t row.bank row.opcode = some row := by
  induction t with
  | nil => cases h
  | cons head t ih =>
    simp only [tableWellFormed, Bool.and_eq_true, List.all_eq_true, Bool.not_eq_true'] at ht
    obtain ⟨hhead, htail⟩ := ht
    rcases List.mem_cons.1 h with rfl | hmem
    · exact lookup_cons_of_key ⟨rfl, rfl⟩ t
    · have hother : ¬(head.bank = row.bank ∧ head.opcode = row.opcode) := fun ⟨hbank, hopcode⟩ => by
        have hno := hhead row hmem
        rw [hasKey_iff.2 ⟨hbank.symm, hopcode.symm⟩] at hno
        cases hno
      rw [lookup_cons_of_not_key hother, ih htail hmem]

/-! ### The baseline table (R81, R82) -/

/-- The bytes of an instruction before its immediate. -/
def keyBytes (i : Instr) : List Byte := (encode i).take ((encode i).length - i.operandBytes)

/-- An immediate changes the bytes after the key and no other. -/
theorem encode_withOperand (i : Instr) (lo hi : Byte) :
    encode (i.withOperand lo hi) = keyBytes i ++ immediateBytes i.operandBytes lo hi := by
  cases i with
  | ldBcNn | ldDeNn | ldHlNn | ldSpNn | jpA16 =>
    simp [Instr.withOperand, encode, keyBytes, Instr.operandBytes, immediateBytes]
  | _ => rfl

/-- Whether the instruction of an entry encodes to the entry's key, and the key resolves to the entry's bank. -/
def encodesToKey (row : TableRow) : Bool :=
  match row.effect with
  | .instr i => keyBytes i == leadBytes row.bank ++ [row.opcode] && (row.bank != .default || prefixBank row.opcode == none)
  | .written _ => true

theorem baselineTable_encodesToKey : ∀ row ∈ baselineTable, encodesToKey row = true := by decide

theorem baselineTable_wellFormed : tableWellFormed baselineTable = true := by decide

theorem encode_of_entry {row : TableRow} {i : Instr} (hmem : row ∈ baselineTable) (he : row.effect = .instr i) (lo hi : Byte) :
    encode (i.withOperand lo hi) = leadBytes row.bank ++ row.opcode :: immediateBytes i.operandBytes lo hi := by
  have hkey := baselineTable_encodesToKey row hmem
  simp only [encodesToKey, he, Bool.and_eq_true, beq_iff_eq] at hkey
  rw [encode_withOperand, hkey.1, List.append_assoc, List.singleton_append]

theorem prefixBank_of_entry {row : TableRow} {i : Instr} (hmem : row ∈ baselineTable) (he : row.effect = .instr i)
    (hbank : row.bank = .default) : prefixBank row.opcode = none := by
  have hkey := baselineTable_encodesToKey row hmem
  simp only [encodesToKey, he, hbank, Bool.and_eq_true] at hkey
  simpa using hkey.2

/-- Every instruction is that of an entry, but for its immediate (R3). -/
theorem exists_entry (i : Instr) : ∃ row ∈ baselineTable, row.effect = .instr (i.withOperand 0 0) := by
  have hmem : RowEffect.instr (i.withOperand 0 0) ∈ baselineTable.map TableRow.effect := by
    cases i <;> exact List.mem_of_elem_eq_true rfl
  exact List.mem_map.1 hmem

theorem decode_of_entry {row : TableRow} {i : Instr} (hmem : row ∈ baselineTable) (he : row.effect = .instr i) (lo hi : Byte)
    (rest : List Byte) : decode (encode (i.withOperand lo hi) ++ rest) = .ok (i.withOperand lo hi, rest) := by
  have hl := lookup_of_mem baselineTable_wellFormed hmem
  rw [encode_of_entry hmem he, List.append_assoc, List.cons_append, decode,
    decodeWith_leadBytes _ (prefixBank_of_entry hmem he), decodeIn_instr hl he, decodeOperand_immediateBytes]

/-- Settles O12: an instruction is an entry's with an immediate put in, and the three stages take off the three parts of its bytes. -/
theorem decodeOfEncodeIsTheInstruction : Obligations.DecodeOfEncodeIsTheInstruction := by
  intro i rest _
  obtain ⟨row, hmem, he⟩ := exists_entry i
  obtain ⟨lo, hi, hi'⟩ := exists_withOperand_withOperand i 0 0
  rw [hi']
  exact decode_of_entry hmem he lo hi rest

/-- Settles O13: what each stage took off is a part of the encoding of the entry found. -/
theorem decodedBytesAreTheEncoding : Obligations.DecodedBytesAreTheEncoding := by
  intro bytes i rest h
  obtain ⟨_, _, bytes', rfl, hin⟩ := leadBytes_of_decodeWith h
  obtain ⟨row, hmem, rfl, rfl, j, he, hoperand⟩ := entry_of_decodeIn hin
  obtain ⟨lo, hi, rfl, rfl⟩ := immediateBytes_of_decodeOperand hoperand
  rw [encode_of_entry hmem he, List.append_assoc, List.cons_append]

theorem decode_of_encode_eq {i : Instr} {bytes : List Byte} (h : encode i = bytes) : decode bytes = .ok (i, []) := by
  rw [← h, ← List.append_nil (encode i)]
  exact decodeOfEncodeIsTheInstruction i [] rfl

/-- Settles O15: the words are the encodings of their instructions. -/
theorem wordsOfTheOpcodeMapDecode : Obligations.WordsOfTheOpcodeMapDecode := by
  refine ⟨?_, ?_, ?_, ?_, ?_, ?_, ?_, ?_, ?_⟩ <;> exact decode_of_encode_eq rfl

/-! ### Registration (R74, R201) -/

/-- Settles O16: the new entry stands first, and the entries taken out have its key. -/
theorem registerReplacesOneEntry : Obligations.RegisterReplacesOneEntry := by
  intro t row bank opcode
  by_cases hkey : row.bank = bank ∧ row.opcode = opcode
  · rw [if_pos hkey, registerRow, lookup_cons_of_key hkey]
  · rw [if_neg hkey, registerRow, lookup_cons_of_not_key hkey, lookup_filter t row hkey]

/-! ### The immediate as the accessors read it (R76, R77) -/

theorem word_of_withOperand {i : Instr} {lo hi : Byte} {nn : Word}
    (h : i.withOperand lo hi ∈ [Instr.ldBcNn nn, .ldDeNn nn, .ldHlNn nn, .ldSpNn nn, .jpA16 nn]) : wordOf hi lo = nn := by
  cases i with
  | ldBcNn | ldDeNn | ldHlNn | ldSpNn | jpA16 => simpa [Instr.withOperand] using h
  | _ => simp [Instr.withOperand] at h

theorem byte_of_withOperand {i : Instr} {lo hi r8 : Byte} (h : i.withOperand lo hi = .jrNzR8 r8) : lo = r8 := by
  cases i with
  | jrNzR8 => simpa [Instr.withOperand] using h
  | _ => cases h

/-- The immediate of what the bytes at `pc` decode to is made of the two bytes where the effect starts. -/
theorem immediate_of_decodeWith_window {s : State} {i : Instr} {rest : List Byte}
    (h : decodeWith s.table s.window = .ok (i, rest)) :
    ∃ j : Instr, i = j.withOperand (s.byteAt s.atEffect.pc) (s.byteAt (s.atEffect.pc + 1)) := by
  rcases lookupEntry_cases s with ⟨_, j, _, -, -, -, hd⟩ | ⟨_, _, _, _, -, -, -, hd⟩ | ⟨_, _, -, hd⟩ <;>
    rw [hd] at h <;> cases h
  exact ⟨j, rfl⟩

/-- Settles O29: the accessors read the same two bytes. -/
theorem decodedImmediateIsWhatTheAccessorReads : Obligations.DecodedImmediateIsWhatTheAccessorReads := by
  intro s i rest hd
  obtain ⟨j, rfl⟩ := immediate_of_decodeWith_window hd
  refine ⟨fun nn hi hpc => ?_, fun r8 hi => ?_⟩
  · rw [← word_of_withOperand hi]
    exact (readWord_pc s.atEffect).trans (if_neg hpc)
  · rw [← byte_of_withOperand hi]
    exact readByte_word s.mem s.atEffect.pc

theorem execute_of_immediateFails {i : Instr} {s : State} (h : ImmediateFails i s) :
    execute (.instr i) s = .next (s.raise (.outOfBounds 0xFFFF 2)) := by
  rw [execute_instr, if_pos h]

/-- Settles O19: the five immediates are words, and a word read fails at 0xFFFF. -/
theorem immediateAtTheTopIsOutOfBounds : Obligations.ImmediateAtTheTopIsOutOfBounds := by
  intro v s hpc i hi
  have htwo : ∀ j ∈ [Instr.ldBcNn v, .ldDeNn v, .ldHlNn v, .ldSpNn v, .jpA16 v], j.operandBytes = 2 := by
    simp [Instr.operandBytes]
  exact execute_of_immediateFails ⟨htwo i hi, hpc⟩

/-! ### What a written effect can see (R75) -/

/-- An effect neither reads nor writes the outside, since none of its operations does. -/
theorem runEffect_withOutside (e : Effect) (slots : List Int) (s o : State) :
    runEffect e slots (s.withOutside o) = (runEffect e slots s).withOutside o := by
  induction e generalizing slots s with
  | done => rfl
  | andThen op next ih =>
    have hop := runOp_withOutside slots s o op
    cases h : runOp slots s op with
    | error fault =>
      rw [h] at hop
      simp only [runEffect, hop, h, Except.map]
      rfl
    | ok p =>
      rw [h] at hop
      rw [runEffect_andThen hop, runEffect_andThen h]
      exact ih p.1 p.2
  | branch cond yes no ihyes ihno =>
    by_cases hc : evalExpr slots s cond = 0
    · simpa only [runEffect, evalExpr_withOutside, if_pos hc] using ihno slots s
    · simpa only [runEffect, evalExpr_withOutside, if_neg hc] using ihyes slots s

/-- Settles O54, by induction on the effect; its fatal is the refusal of a byte or word access. -/
theorem effectsSeeRegistersAndMemoryOnly : Obligations.EffectsSeeRegistersAndMemoryOnly := by
  refine fun e slots s o => ⟨runEffect_withOutside e slots s o, (runEffect_fatal e slots s).imp_right ?_⟩
  rintro ⟨_, hfatal, addr, size, rfl, hsize, hout⟩
  exact ⟨addr, size, hfatal, hsize, hout⟩

end Sys2Proof.Machine
end
section
/-! PROOFS. The dispatch engine (spec/40_dispatch_engine.md). First that the step is total (R107, R109). With a next state at hand
`step_cases` says which of its four ways a step went, and what the bytes at `pc` decode to shuts out the others: that settles the step of
a decoded instruction (R105) and that of an unassigned opcode (R104). Last what a record adds to the log (R106, R183), and from it what
each way leaves (R224). -/

namespace Sys2Proof.Machine

/-! ### Totality (R107, R109) -/

/-- `Execute` answers a next state, for every entry a table can hold (R105). -/
theorem execute_next (effect : RowEffect) (s : State) : ∃ t, execute effect s = .next t := by
  cases effect with
  | written e => exact ⟨_, execute_written e s⟩
  | instr i =>
    rw [execute_instr]
    by_cases hfails : ImmediateFails i s
    · exact ⟨_, if_pos hfails⟩
    · rw [if_neg hfails]
      exact exec_next _ _

theorem step_of_lookupEntry_error {s s' : State} {fault : Fault} (hs : s.fatal = none)
    (h : lookupEntry s = .error (fault, s')) : step s = .next (s'.raise fault) := by
  simp [step, hs, h]

theorem step_of_lookupEntry_ok {s s' : State} {row : TableRow} (hs : s.fatal = none) (h : lookupEntry s = .ok (row, s')) :
    step s = finish (execute row.effect s') := by
  simp [step, hs, h]

/-- Settles O31, by the latched case of the step. -/
theorem latchedMachineTakesNoStep : Obligations.LatchedMachineTakesNoStep :=
  fun _ fault hs => step_latched (hs ▸ Option.some_ne_none fault)

/-- Settles O32: `Lookup` finds an entry or a fatal to latch, and `Execute` of an entry answers a next state. -/
theorem stepAlwaysAnswersANextState : Obligations.StepAlwaysAnswersANextState := by
  intro s
  by_cases hs : s.fatal = none
  · rcases hentry : lookupEntry s with ⟨fault, s'⟩ | ⟨row, s'⟩
    · exact ⟨_, step_of_lookupEntry_error hs hentry⟩
    · obtain ⟨t, ht⟩ := execute_next row.effect s'
      exact ⟨record t, by rw [step_of_lookupEntry_ok hs hentry, ht, finish]⟩
  · exact ⟨s, step_latched hs⟩

/-! ### The step by what the bytes at `pc` decode to (R104, R105) -/

/-- The step of a decoded instruction: the fatal of its immediate, or its meaning and a record. -/
theorem step_of_decodeWith_ok {s : State} {i : Instr} {rest : List Byte} (hs : s.fatal = none)
    (hd : decodeWith s.table s.window = .ok (i, rest)) :
    (ImmediateFails i s.atEffect ∧ step s = .next (s.atEffect.raise (.outOfBounds 0xFFFF 2))) ∨
    (¬ImmediateFails i s.atEffect ∧
      ∃ t, exec i (s.atEffect.advancePc i.operandBytes) = .next t ∧ step s = .next (record t)) := by
  obtain ⟨t, ht⟩ := stepAlwaysAnswersANextState s
  rcases step_cases hs ht with ⟨j, rest', hj, hends⟩ | ⟨_, _, _, _, -, -, hother, -⟩ | ⟨_, _, hunassigned, -⟩
  · obtain ⟨rfl, rfl⟩ : j = i ∧ rest' = rest := by simpa [hd] using hj.symm
    rcases hends with ⟨hfails, rfl⟩ | ⟨hreads, u, hexec, rfl⟩
    · exact .inl ⟨hfails, ht⟩
    · exact .inr ⟨hreads, u, hexec, ht⟩
  · simp [hd] at hother
  · simp [hd] at hunassigned

/-- Settles O30: of the ways a step goes only the fatal of an unassigned key has these bytes. -/
theorem unassignedOpcodeIsFatal : Obligations.UnassignedOpcodeIsFatal := by
  intro s bank opcode hs hd
  obtain ⟨t, ht⟩ := stepAlwaysAnswersANextState s
  rcases step_cases hs ht with ⟨_, _, hok, -⟩ | ⟨_, _, _, _, -, -, hother, -⟩ | ⟨bank', opcode', hunassigned, rfl⟩
  · simp [hd] at hok
  · simp [hd] at hother
  · obtain ⟨rfl, rfl⟩ : bank' = bank ∧ opcode' = opcode := by simpa [hd] using hunassigned.symm
    exact ht

theorem record_of_running {s : State} (hs : s.fatal = none) : record s = traceRecord (snapshot s) s :=
  if_neg (by simp [hs])

/-- Settles O28: an instruction leaves the latch alone, so the record after it is `TraceRecord` of the snapshot. -/
theorem stepRunsTheDecodedInstruction : Obligations.StepRunsTheDecodedInstruction := by
  intro s i rest hs hd u
  rcases step_of_decodeWith_ok hs hd with ⟨hfails, hstep⟩ | ⟨hreads, t, hexec, hstep⟩
  · exact ⟨fun _ => hstep, fun hreads => absurd hfails hreads⟩
  · obtain ⟨-, -, hfatal, -⟩ := exec_outer hexec
    rw [record_of_running (hfatal.trans hs)] at hstep
    exact ⟨fun hfails => absurd hfails hreads, fun _ => ⟨t, hexec, hstep⟩⟩

/-! ### What a step records (R106, R183, R224) -/

theorem record_of_fatal {s : State} {fault : Fault} (hs : s.fatal = some fault) : record s = s :=
  if_pos (by simp [hs])

/-- A record changes none of the six values of a snapshot (R182). -/
@[simp] theorem snapshot_record (s : State) : snapshot (record s) = snapshot s := by
  rw [record_frame]
  rfl

/-- `t` has one record more than `s`, the snapshot of `t` itself, and at most the mismatch of that record latched. -/
def RecordsOnce (s t : State) : Prop :=
  t.trace = s.trace ++ [snapshot t] ∧ t.count = s.count + 1 ∧
    (t.fatal = none ∨ ∃ entry, t.fatal = some (.traceMismatch s.count entry (snapshot t)))

/-- The record of a state with no fatal whose log is that of `s` (R183; D11, assumption log 13). -/
theorem recordsOnce_record {s u : State} (hu : u.fatal = none) (htrace : u.trace = s.trace) (hcount : u.count = s.count) :
    RecordsOnce s (record u) := by
  rw [RecordsOnce, snapshot_record, record_of_running hu, ← htrace, ← hcount]
  rcases traceRecord_cases (snapshot u) u with heq | ⟨entry, -, -, heq⟩ <;> rw [heq]
  · exact ⟨rfl, rfl, .inl hu⟩
  · exact ⟨rfl, rfl, .inr ⟨entry, rfl⟩⟩

/-- Settles O33, by the ways a step goes: a completed effect is recorded, one that raised is not (R105); a table of instructions has no
written effect to run. -/
theorem stepRecordsOnceOrIsFatalBefore : Obligations.StepRecordsOnceOrIsFatalBefore := by
  intro s t hs hstep
  rcases step_cases hs hstep with ⟨i, _, -, ⟨-, rfl⟩ | ⟨-, u, hexec, rfl⟩⟩ | ⟨row, e, _, _, hlookup, he, -, rfl⟩ |
    ⟨bank, opcode, -, rfl⟩
  · exact .inr (.inr ⟨⟨_, _, rfl⟩, rfl, rfl, fun _ => ⟨rfl, rfl⟩⟩)
  · obtain ⟨htrace, hcount, hfatal, -⟩ := exec_outer hexec
    exact .inl (recordsOnce_record (hfatal.trans hs) htrace hcount)
  · obtain ⟨htrace, hcount, -⟩ := runEffect_outer e [] s.atEffect
    rcases runEffect_fatal e [] s.atEffect with hfatal | ⟨_, hfatal, addr, size, rfl, -, -⟩
    · exact .inl (recordsOnce_record (hfatal.trans hs) htrace hcount)
    · rw [record_of_fatal hfatal]
      refine .inr (.inr ⟨⟨addr, size, hfatal⟩, htrace, hcount, fun htable => ?_⟩)
      obtain ⟨i, hi⟩ := instr_of_instructionsOnly htable (lookup_some hlookup).1
      rw [hi] at he
      cases he
  · exact .inr (.inl ⟨⟨bank, opcode, rfl⟩, rfl⟩)

end Sys2Proof.Machine
end
section
/-! PROOFS. The loads of a word immediate (spec/41_load_pair_immediate.md). A word immediate that can be read is the two bytes at `pc`
(R77), and a pair written with a word made of two bytes has those bytes in its halves (R12); the four loads are instances. -/

namespace Sys2Proof.Machine

/-- `Execute` of an instruction whose word immediate can be read (R77): its meaning on the two bytes at `pc`. -/
theorem execute_of_wordImmediate {i : Instr} {s : State} (htwo : i.operandBytes = 2) (hpc : s.pc ≠ 0xFFFF) :
    execute (.instr i) s = exec (i.withOperand (s.byteAt s.pc) (s.byteAt (s.pc + 1))) (s.advancePc 2) := by
  have hreads : ¬ImmediateFails i s := fun hfails => hpc hfails.2
  rw [execute_instr, if_neg hreads, htwo]

theorem writePair_wordOf (s : State) (p : Pair) (hi lo : Byte) :
    s.writePair p (wordOf hi lo) = (s.writeReg (pairHigh p) hi).writeReg (pairLow p) lo := by
  rw [State.writePair, highByte_wordOf, lowByte_wordOf]

/-- A load of a pair puts the byte at `pc` into its low half and the byte after it into its high half (R120 to R122, R124). -/
theorem execute_loadPair {i : Instr} {p : Pair} {s : State} (htwo : i.operandBytes = 2)
    (hexec : ∀ lo hi u, exec (i.withOperand lo hi) u = .next (u.writePair p (wordOf hi lo))) (hpc : s.pc ≠ 0xFFFF) :
    execute (.instr i) s =
      .next (((s.advancePc 2).writeReg (pairHigh p) (s.byteAt (s.pc + 1))).writeReg (pairLow p) (s.byteAt s.pc)) := by
  rw [execute_of_wordImmediate htwo hpc, hexec, writePair_wordOf]

/-- Settles O18: the meanings are writes of a pair or of SP, and `execute` makes their word of the two bytes at `pc`. -/
theorem loadPairImmediateResult : Obligations.LoadPairImmediateResult := by
  refine fun nn v s => ⟨⟨?_, ?_, ?_, rfl⟩, fun hpc => ⟨?_, ?_, ?_, ?_⟩⟩
  · exact congrArg Host.Outcome.next (writePair_bc s nn)
  · exact congrArg Host.Outcome.next (writePair_de s nn)
  · exact congrArg Host.Outcome.next (writePair_hl s nn)
  · exact execute_loadPair (p := .bc) rfl (fun _ _ _ => rfl) hpc
  · exact execute_loadPair (p := .de) rfl (fun _ _ _ => rfl) hpc
  · exact execute_loadPair (p := .hl) rfl (fun _ _ _ => rfl) hpc
  · exact execute_of_wordImmediate rfl hpc

end Sys2Proof.Machine
end
section
/-! PROOFS. The stores of A (spec/42_store_a_indirect.md). The store itself is one fact for every pair: it completes, and A stands at the
pair's address while every other byte reads as before. What differs is what follows it: nothing (R131, R132), or a step of HL, up (R133)
or down (R134 and the legacy variant, R135). -/

namespace Sys2Proof.Machine

/-- The store of every form: A goes to the byte at the pair's address (R136), and the effect goes on with nothing else changed. -/
theorem storeByte_readPair {s : State} (hm : Memory.wf s.mem = true) (p : Pair) (next : State → Outcome) :
    ∃ m, storeByte s (s.readPair p) s.a next = next { s with mem := m } ∧
      ∀ x, Memory.peek m x = if x = (s.readPair p).toNat then s.a else Memory.peek s.mem x :=
  ⟨_, storeByte_eq s _ _ next, fun x => peek_poke hm _ x _⟩

/-- A store followed by a step of HL: the step starts from the HL before the store, which changes no register. -/
theorem storeByte_then_stepHl {s : State} (hm : Memory.wf s.mem = true) (p : Pair) (stepHl : Word → Word) :
    ∃ m, storeByte s (s.readPair p) s.a (fun s' => .next (s'.writePair .hl (stepHl (s'.readPair .hl)))) =
        .next { s with mem := m, h := highByte (stepHl (s.readPair .hl)), l := lowByte (stepHl (s.readPair .hl)) } ∧
      ∀ x, Memory.peek m x = if x = (s.readPair p).toNat then s.a else Memory.peek s.mem x := by
  obtain ⟨m, hstore, hpeek⟩ := storeByte_readPair hm p fun s' => .next (s'.writePair .hl (stepHl (s'.readPair .hl)))
  exact ⟨m, hstore.trans (congrArg Host.Outcome.next (writePair_hl { s with mem := m } _)), hpeek⟩

/-- Settles O20: the BC and DE forms are the store alone (the legacy switch is off), the HL forms the store and one step of HL. -/
theorem storeAThroughPairResult : Obligations.StoreAThroughPairResult :=
  fun _ hm => ⟨storeByte_readPair hm .bc _, storeByte_readPair hm .de _, storeByte_then_stepHl hm .hl (· + 1),
    storeByte_then_stepHl hm .hl (· + 65535)⟩

/-- Settles O21: with the switch on the store is followed by the same step of HL as that of `LD (HL-), A`, whatever pair has the address. -/
theorem legacyStoreDecrementsHl : Obligations.LegacyStoreDecrementsHl :=
  fun _ hm p _ => storeByte_then_stepHl hm p (· + 65535)

end Sys2Proof.Machine
end
section
/-! PROOFS. `XOR r` (spec/43_xor.md). The effect is one fact for every operand `r` (R140); six forms are instances of it (R141 to R146),
and `XOR A`, whose operands are always equal, is the one whose result is known (R147). -/

namespace Sys2Proof.Machine

theorem xorEffect_f (r : Operand8) (s : State) :
    (xorEffect r s).f = if s.a = s.readOperand r then 0x80#8 else 0x00#8 := by
  have hflags : (xorEffect r s).f = if s.a ^^^ s.readOperand r = 0#8 then 0x80#8 else 0x00#8 := setXorFlags_f _ _
  simpa only [BitVec.xor_eq_zero_iff] using hflags

/-- The whole state after `XOR r` (R140): the result is zero exactly when A and the operand are equal. -/
theorem xorEffect_eq (r : Operand8) (s : State) :
    xorEffect r s = { s with a := s.a ^^^ s.readOperand r, f := if s.a = s.readOperand r then 0x80#8 else 0x00#8 } := by
  rw [xorEffect_frame, xorEffect_f]
  rfl

theorem xorEffect_a_eq (s : State) : xorEffect .a s = { s with a := 0x00#8, f := 0x80#8 } := by
  have hsame : s.readOperand .a = s.a := rfl
  rw [xorEffect_eq, hsame, BitVec.xor_self, if_pos rfl]

/-- Settles O22: the effect of `XOR r` at each of the seven operands, simplified where the operand is A itself. -/
theorem xorResult : Obligations.XorResult := by
  refine fun s => ⟨?_, ?_, ?_, ?_, ?_, ?_, ?_⟩
  · exact congrArg Host.Outcome.next (xorEffect_eq .b s)
  · exact congrArg Host.Outcome.next (xorEffect_eq .c s)
  · exact congrArg Host.Outcome.next (xorEffect_eq .d s)
  · exact congrArg Host.Outcome.next (xorEffect_eq .e s)
  · exact congrArg Host.Outcome.next (xorEffect_eq .h s)
  · exact congrArg Host.Outcome.next (xorEffect_eq .l s)
  · exact congrArg Host.Outcome.next (xorEffect_a_eq s)

end Sys2Proof.Machine
end
section
/-! PROOFS. `BIT b, r` (spec/44_bit_test.md). All 56 forms are one effect, the flags of the tested bit (R150); what that effect does to F,
to each flag and to the other registers is said once for every bit value, and both statements about the forms follow. -/

open Sys2Proof.Claims

namespace Sys2Proof.Machine

/-- The meaning of a form is `BitEffect` at the bit and the register that `bitForms` lists for it. -/
theorem exec_of_mem_bitForms {q : Instr × Nat × Reg8} (hq : q ∈ bitForms) (s : State) :
    exec q.1 s = .next (s.setBitFlags ((s.readReg q.2.2).getLsbD q.2.1)) := by
  rw [bitForms] at hq
  fin_cases hq <;> rfl

/-- The whole state after the flags of `BIT b, r` (R150). -/
theorem setBitFlags_eq (s : State) (tested : Bool) :
    s.setBitFlags tested = { s with f := (if tested then 0x00#8 else 0x80#8) ||| 0x20#8 ||| (s.f &&& 0x10#8) } := by
  rw [← setBitFlags_f]
  rfl

/-- The four flags after `BIT b, r`: H, N and Z are written, C is not (R150, R151). -/
theorem readFlag_setBitFlags (s : State) (tested : Bool) (fl : Flag) :
    (s.setBitFlags tested).readFlag fl =
      if fl = .h then true else if fl = .n then false else if fl = .z then !tested else s.readFlag fl := by
  rw [State.setBitFlags, readFlag_setFlag, readFlag_setFlag, readFlag_setFlag]

theorem readReg_setBitFlags_other (s : State) (tested : Bool) {r : Reg8} (hr : r ≠ .f) :
    (s.setBitFlags tested).readReg r = s.readReg r := by
  cases r
  case f => exact absurd rfl hr
  all_goals rfl

/-- Settles O23: every form is the flags of its tested bit, whose whole state is known. -/
theorem bitResult : Obligations.BitResult := by
  intro q hq s
  rw [exec_of_mem_bitForms hq, setBitFlags_eq]

/-- Settles O24: Z is read back as the complement of the tested bit, and the other flags and registers by the same rules. -/
theorem bitSetsZeroIffTheBitIsClear : Obligations.BitSetsZeroIffTheBitIsClear := by
  intro q hq s
  refine ⟨_, exec_of_mem_bitForms hq s, ?_, readFlag_setBitFlags s _ .n, readFlag_setBitFlags s _ .h,
    readFlag_setBitFlags s _ .c, fun r hr => readReg_setBitFlags_other s _ hr⟩
  simp [readFlag_setBitFlags]

end Sys2Proof.Machine
end
section
/-! PROOFS. `JR NZ, r8` and `JP a16` (spec/45_control_transfer.md). `JR NZ` has two meanings, by the flag Z (R160); `execute` puts each of
them after the displacement byte. `JP` writes `pc` with its immediate (R161), and where that immediate is the address of the `JP` itself
the step leaves the state as it was but for the record. -/

open Sys2Proof.Claims

namespace Sys2Proof.Machine

/-! ### `JR NZ, r8` (R160) -/

theorem exec_jrNzR8_notTaken {s : State} (hz : s.readFlag .z = true) (r8 : Byte) : exec (.jrNzR8 r8) s = .next s :=
  congrArg Host.Outcome.next (if_pos hz)

theorem exec_jrNzR8_taken {s : State} (hz : s.readFlag .z = false) (r8 : Byte) :
    exec (.jrNzR8 r8) s = .next { s with pc := s.pc + signExtend16 r8 } :=
  congrArg Host.Outcome.next (if_neg (ne_true_of_eq_false hz))

/-- `Execute` of `JR NZ`: its displacement, one byte, can be read at every `pc` (R76). -/
theorem execute_jrNzR8 (v : Byte) (s : State) :
    execute (.instr (.jrNzR8 v)) s = exec (.jrNzR8 (s.byteAt s.pc)) (s.advancePc 1) := by
  have hreads : ¬ImmediateFails (.jrNzR8 v) s := by simp [ImmediateFails, Instr.operandBytes]
  rw [execute_instr, if_neg hreads]
  rfl

/-- Settles O25: the two meanings, `execute` starting them with `pc` past the displacement byte; the target as a number modulo 65536 is
`add_signExtend16`. -/
theorem jumpRelativeResult : Obligations.JumpRelativeResult := by
  refine fun r8 v s => ⟨fun hz => ⟨exec_jrNzR8_notTaken hz r8, ?_⟩, fun hz => ⟨?_, ?_⟩⟩
  · rw [execute_jrNzR8]
    exact exec_jrNzR8_notTaken (s := s.advancePc 1) hz _
  · have htarget : s.pc + signExtend16 r8 = BitVec.ofNat 16 (s.pc.toNat + displacement r8) := by
      simpa using add_signExtend16 s.pc 0 r8
    rw [exec_jrNzR8_taken hz, htarget]
  · rw [execute_jrNzR8, ← add_signExtend16]
    exact exec_jrNzR8_taken (s := s.advancePc 1) hz _

/-! ### `JP a16` (R161) -/

/-- Settles O26: the meaning writes `pc`, and `execute` makes its word of the two bytes at `pc`. -/
theorem jumpAbsoluteResult : Obligations.JumpAbsoluteResult :=
  fun _ _ _ => ⟨rfl, fun hpc => execute_of_wordImmediate rfl hpc⟩

/-! ### `JP` to its own address (R110) -/

/-- A record that meets no expected entry is appended and counted, and compared with nothing (R183, R184). -/
theorem traceRecord_of_expectedNext_none {s : State} (h : s.expectedNext = none) (snap : Text) :
    traceRecord snap s = recorded snap s := by
  rcases traceRecord_cases snap s with heq | ⟨entry, hentry, -, -⟩
  · exact heq
  · rw [h] at hentry
    cases hentry

theorem expectedNext_of_expected_none {s : State} (h : s.expected = none) : s.expectedNext = none := by
  rw [State.expectedNext, h]

/-- The opcode byte of `JP` and the low and the high byte of a word decode to the jump to that word (R81; D5, assumption log 5). -/
theorem decode_window_of_jpA16 {s : State} {a16 : Word} (hopcode : s.byteAt s.pc = 0xC3)
    (hlow : s.byteAt (s.pc + 1) = lowByte a16) (hhigh : s.byteAt (s.pc + 2) = highByte a16) :
    decode s.window = .ok (.jpA16 a16, [s.byteAt (s.pc + 3)]) := by
  have hwindow : s.window = encode (.jpA16 a16) ++ [s.byteAt (s.pc + 3)] := by
    rw [State.window, hopcode, hlow, hhigh]
    rfl
  rw [hwindow]
  exact decodeOfEncodeIsTheInstruction _ _ rfl

/-- Settles O41: the bytes at `pc` decode to the jump to `pc`, whose meaning writes `pc` with the value it had. -/
theorem jumpToItselfSpins : Obligations.JumpToItselfSpins := by
  intro s hs htable hexpected hpc hopcode hlow hhigh
  have hdecode : decodeWith s.table s.window = .ok (.jpA16 s.pc, [s.byteAt (s.pc + 3)]) := by
    rw [htable]
    exact decode_window_of_jpA16 hopcode hlow hhigh
  have hreads : ¬ImmediateFails (.jpA16 s.pc) s.atEffect := by
    have hnext : s.atEffect.pc = s.pc + 1#16 := by rw [State.atEffect, hopcode]; rfl
    rintro ⟨-, htop⟩
    bv_omega
  rcases step_of_decodeWith_ok hs hdecode with ⟨hfails, -⟩ | ⟨-, t, hexec, hstep⟩
  · exact absurd hfails hreads
  · cases hexec
    rw [hstep]
    have hsame : ({ s.atEffect.advancePc (Instr.jpA16 s.pc).operandBytes with pc := s.pc } : State) = s := rfl
    rw [hsame, record_of_running hs, traceRecord_of_expectedNext_none (expectedNext_of_expected_none hexpected)]

end Sys2Proof.Machine
end
section
/-! PROOFS. `NOP` (spec/46_nop.md). Its meaning answers the state it is given (R170), so all that its step changes is what fetching the
opcode byte and recording change: `pc`, by one, and the trace (R106). -/

open Sys2Proof.Claims

namespace Sys2Proof.Machine

theorem exec_nop (s : State) : exec .nop s = .next s := rfl

/-- The byte 0x00 decodes to `NOP`, whatever bytes follow it (R81; D5, assumption log 5). -/
theorem decode_window_of_nop {s : State} (hopcode : s.byteAt s.pc = 0x00) :
    decode s.window = .ok (.nop, [s.byteAt (s.pc + 1), s.byteAt (s.pc + 2), s.byteAt (s.pc + 3)]) := by
  have hwindow : s.window = encode .nop ++ [s.byteAt (s.pc + 1), s.byteAt (s.pc + 2), s.byteAt (s.pc + 3)] := by
    rw [State.window, hopcode]
    rfl
  rw [hwindow]
  exact decodeOfEncodeIsTheInstruction _ _ rfl

/-- Where no sequence is expected, the record of a running state is the snapshot, appended and counted (R106, R184). -/
theorem record_of_expected_none {s : State} (hs : s.fatal = none) (hexpected : s.expected = none) :
    record s = recorded (snapshot s) s := by
  rw [record_of_running hs, traceRecord_of_expectedNext_none (expectedNext_of_expected_none hexpected)]

/-- Settles O40: the byte at `pc` decodes to `NOP`, which has no immediate and whose meaning leaves the state as the fetch made it. -/
theorem nopStepAdvancesAndRecords : Obligations.NopStepAdvancesAndRecords := by
  refine fun s => ⟨exec_nop s, fun hs htable hexpected hopcode => ?_⟩
  have hdecode := decode_window_of_nop hopcode
  rw [decode, ← htable] at hdecode
  have hreads : ¬ImmediateFails .nop s.atEffect := by simp [ImmediateFails, Instr.operandBytes]
  have hfetched : s.atEffect.advancePc Instr.nop.operandBytes = { s with pc := s.pc + 1 } := by
    rw [State.atEffect, hopcode]
    exact advancePc_zero _
  rcases step_of_decodeWith_ok hs hdecode with ⟨hfails, -⟩ | ⟨-, t, hexec, hstep⟩
  · exact absurd hfails hreads
  · rw [hfetched, exec_nop] at hexec
    cases hexec
    exact hstep.trans (congrArg Host.Outcome.next (record_of_expected_none hs hexpected))

end Sys2Proof.Machine
end
section
/-! PROOFS. The trace log (spec/47_trace_log.md). First the snapshot: a digit shows its four bits and nothing else, so a field shows its
word (R182). Then what a record does in the three cases of the expected sequence (R183, R184), and the log as one text (R187). Last what
a step can see of memory (R188): the bytes at `pc` spell the key that is looked up, the immediate follows them, and nothing else that
the step does to registers, log and latch reads memory. -/

open Sys2Proof.Claims

namespace Sys2Proof.Machine

/-! ### The snapshot (R182) -/

theorem hexDigit_eq (v : BitVec 4) : hexDigit v = "0123456789ABCDEF".toList.getD v.toNat ' ' := by
  have digits : ∀ x : BitVec 4, hexDigit x = "0123456789ABCDEF".toList.getD x.toNat ' ' := by decide
  exact digits v

theorem hexDigit_inj {v w : BitVec 4} : hexDigit v = hexDigit w ↔ v = w := by
  have distinct : ∀ x y : BitVec 4, hexDigit x = hexDigit y → x = y := by decide
  exact ⟨distinct v w, congrArg hexDigit⟩

/-- The digits are the quotients by the powers of 16, each modulo 16. -/
theorem hex4_eq_hexOf (v : Word) : hex4 v = hexOf v.toNat := by
  simp [hex4, hexOf, hexDigit_eq, Nat.shiftRight_eq_div_pow]

/-- A word is its four digits. -/
theorem hex4_inj {v w : Word} : hex4 v = hex4 w ↔ v = w := by
  refine ⟨fun h => ?_, congrArg hex4⟩
  simp only [hex4, List.cons.injEq, hexDigit_inj, and_true] at h
  obtain ⟨h3, h2, h1, h0⟩ := h
  have digits : ∀ x : Word, x.extractLsb' 12 4 ++ x.extractLsb' 8 4 ++ x.extractLsb' 4 4 ++ x.extractLsb' 0 4 = x :=
    fun x => by
      rw [BitVec.extractLsb'_append_extractLsb'_eq_extractLsb' (show 12 = 8 + 4 from rfl),
        BitVec.extractLsb'_append_extractLsb'_eq_extractLsb' (show 8 = 4 + 4 from rfl),
        BitVec.extractLsb'_append_extractLsb'_eq_extractLsb' (show 4 = 0 + 4 from rfl)]
      exact BitVec.extractLsb'_eq_self
  rw [← digits v, ← digits w, h3, h2, h1, h0]

theorem toNat_readPair (s : State) (p : Pair) :
    (s.readPair p).toNat = (s.readReg (pairHigh p)).toNat * 256 + (s.readReg (pairLow p)).toNat := wordOf_toNat _ _

/-- Settles O45: each field is the hexadecimal number of its word, and a pair's number is made of its two registers. -/
theorem snapshotFormat : Obligations.SnapshotFormat := by
  refine ⟨fun s => ?_, snapshot_length, fun s hf => ?_, rfl⟩
  · simp only [snapshot, hex4_eq_hexOf, toNat_readPair]
    rfl
  · rw [snapshot_af_last, extractLsb'_low hf]
    rfl

/-- Two snapshots are equal field by field, since every field has its place. -/
theorem snapshot_eq_iff (s t : State) :
    snapshot s = snapshot t ↔
      hex4 (s.readPair .af) = hex4 (t.readPair .af) ∧ hex4 (s.readPair .bc) = hex4 (t.readPair .bc) ∧
      hex4 (s.readPair .de) = hex4 (t.readPair .de) ∧ hex4 (s.readPair .hl) = hex4 (t.readPair .hl) ∧
      hex4 s.sp = hex4 t.sp ∧ hex4 s.pc = hex4 t.pc := by
  simp [snapshot, hex4, and_assoc]

theorem forall_pair {P : Pair → Prop} : (∀ p, P p) ↔ P .af ∧ P .bc ∧ P .de ∧ P .hl := by
  refine ⟨fun h => ⟨h .af, h .bc, h .de, h .hl⟩, fun ⟨haf, hbc, hde, hhl⟩ p => ?_⟩
  cases p <;> assumption

/-- Settles O46: a snapshot is its six fields, and a field is its word. -/
theorem snapshotIsExactlyTheSixValues : Obligations.SnapshotIsExactlyTheSixValues := by
  intro s t
  simp only [snapshot_eq_iff, hex4_inj, forall_pair, and_assoc]

/-! ### The record and the expected sequence (R183, R184) -/

theorem expectedNext_of_expected {s : State} {entries : List Text} (h : s.expected = some entries) :
    s.expectedNext = entries[s.count]? := by
  rw [State.expectedNext, h]

theorem traceRecord_of_match {s : State} {snap entry : Text} (h : s.expectedNext = some entry) (heq : snap = entry) :
    traceRecord snap s = recorded snap s := by
  simp [traceRecord, h, heq, recorded]

theorem traceRecord_of_mismatch {s : State} {snap entry : Text} (h : s.expectedNext = some entry) (hne : snap ≠ entry) :
    traceRecord snap s = (recorded snap s).raise (.traceMismatch s.count entry snap) := by
  simp [traceRecord, h, hne, recorded]

/-- Settles O47, by the two cases of an entry to compare with. -/
theorem recordComparesWithTheExpectedEntry : Obligations.RecordComparesWithTheExpectedEntry := by
  intro s snap entry entries hexpected hentry
  have hnext : s.expectedNext = some entry := (expectedNext_of_expected hexpected).trans hentry
  exact ⟨traceRecord_of_match hnext, traceRecord_of_mismatch hnext⟩

/-- Settles O48: past its end the sequence has no entry to meet; before it the latch tells the two cases apart. -/
theorem noComparisonBeyondTheExpectedSequence : Obligations.NoComparisonBeyondTheExpectedSequence := by
  refine ⟨fun s snap entries hexpected hlength => ?_, fun s snap entry entries hexpected hs hentry => ?_,
    fun s snap hexpected => ?_⟩
  · have hnext := expectedNext_of_expected hexpected
    rw [List.getElem?_eq_none hlength] at hnext
    exact traceRecord_of_expectedNext_none hnext snap
  · have hnext : s.expectedNext = some entry := (expectedNext_of_expected hexpected).trans hentry
    by_cases heq : snap = entry
    · rw [traceRecord_of_match hnext heq]
      exact iff_of_true hs heq
    · rw [traceRecord_of_mismatch hnext heq]
      exact iff_of_false (Option.some_ne_none _) heq
  · have hnext : s.expectedNext = none := by
      rcases hexpected with hempty | hnone
      · exact expectedNext_of_expected hempty
      · exact expectedNext_of_expected_none hnone
    exact traceRecord_of_expectedNext_none hnext snap

/-! ### The log as one text (R187) -/

/-- An entry without a line feed is read up to the line feed that ends it. -/
theorem splitEntries_append_lineFeed {t : Text} (ht : lineFeed ∉ t) (pending rest : Text) :
    splitEntries pending (t ++ lineFeed :: rest) = (pending ++ t) :: splitEntries [] rest := by
  induction t generalizing pending with
  | nil => simp [splitEntries]
  | cons ch t ih =>
    obtain ⟨hch, ht⟩ := List.ne_and_not_mem_of_not_mem_cons ht
    rw [List.cons_append, splitEntries, if_neg (Ne.symm hch), ih ht, List.append_assoc, List.singleton_append]

theorem parseExpected_serialise {entries : List Text} (h : ∀ t ∈ entries, lineFeed ∉ t) :
    parseExpected (serialise entries) = entries := by
  induction entries with
  | nil => rfl
  | cons t entries ih =>
    obtain ⟨ht, hentries⟩ := List.forall_mem_cons.1 h
    rw [serialise, parseExpected, splitEntries_append_lineFeed ht, List.nil_append, ← parseExpected, ih hentries]

theorem length_serialise (entries : List Text) :
    (serialise entries).length = (entries.map List.length).sum + entries.length := by
  induction entries with
  | nil => rfl
  | cons t entries ih =>
    simp only [serialise, List.length_append, List.length_cons, ih, List.map_cons, List.sum_cons]
    omega

/-- Settles O49, by induction on the entries. -/
theorem logTextSplitsBackIntoItsEntries : Obligations.LogTextSplitsBackIntoItsEntries :=
  fun entries h => ⟨parseExpected_serialise h, length_serialise entries⟩

/-! ### The step by the key at `pc` (R102, R103) -/

/-- The key that the bytes at `pc` spell: a lead byte's bank with the byte after it, or the default bank with the byte itself (R72). -/
def State.key (s : State) : Bank × Byte :=
  match prefixBank (s.byteAt s.pc) with
  | none => (.default, s.byteAt s.pc)
  | some bank => (bank, s.byteAt (s.pc + 1))

theorem key_of_prefixBank_none {s : State} (h : prefixBank (s.byteAt s.pc) = none) : s.key = (.default, s.byteAt s.pc) := by
  rw [State.key, h]

theorem key_of_prefixBank_some {s : State} {bank : Bank} (h : prefixBank (s.byteAt s.pc) = some bank) :
    s.key = (bank, s.byteAt (s.pc + 1)) := by
  rw [State.key, h]

theorem headerBytes_of_prefixBank_none {b0 : Byte} (h : prefixBank b0 = none) : headerBytes b0 = 1 := by simp [headerBytes, h]

theorem headerBytes_of_prefixBank_some {b0 : Byte} {bank : Bank} (h : prefixBank b0 = some bank) : headerBytes b0 = 2 := by
  simp [headerBytes, h]

/-- The first bytes fetched resolve to the key and leave `pc` where an effect starts (R101, R102). -/
theorem resolveBank_eq (s : State) :
    resolveBank (s.byteAt s.pc) (s.advancePc 1) = .ok (s.key.1, s.key.2, s.atEffect) := by
  cases h : prefixBank (s.byteAt s.pc) with
  | none => rw [key_of_prefixBank_none h, State.atEffect, headerBytes_of_prefixBank_none h]; simp only [resolveBank, h]
  | some bank =>
    rw [key_of_prefixBank_some h, State.atEffect, headerBytes_of_prefixBank_some h]
    simp only [resolveBank, h, fetchByte_eq, advancePc_add]
    rfl

theorem lookupEntry_of_lookup_none {s : State} (h : lookup s.table s.key.1 s.key.2 = none) :
    lookupEntry s = .error (.unimplementedOpcode s.key.1 s.key.2, s.atEffect) := by
  have htable : s.atEffect.table = s.table := rfl
  simp only [lookupEntry, fetchByte_eq, resolveBank_eq, htable, h]

theorem lookupEntry_of_lookup_some {s : State} {row : TableRow} (h : lookup s.table s.key.1 s.key.2 = some row) :
    lookupEntry s = .ok (row, s.atEffect) := by
  have htable : s.atEffect.table = s.table := rfl
  simp only [lookupEntry, fetchByte_eq, resolveBank_eq, htable, h]

theorem step_of_lookup_none {s : State} (hs : s.fatal = none) (h : lookup s.table s.key.1 s.key.2 = none) :
    step s = .next (s.atEffect.raise (.unimplementedOpcode s.key.1 s.key.2)) :=
  step_of_lookupEntry_error hs (lookupEntry_of_lookup_none h)

theorem step_of_lookup_some {s : State} {row : TableRow} (hs : s.fatal = none) (h : lookup s.table s.key.1 s.key.2 = some row) :
    step s = finish (execute row.effect s.atEffect) :=
  step_of_lookupEntry_ok hs (lookupEntry_of_lookup_some h)

/-! ### What a step sees of memory (R188) -/

/-- A state that differs from `s` in memory alone. -/
def SameButMem (s s' : State) : Prop := ∃ m, s' = { s with mem := m }

theorem SameButMem.pc_eq {s s' : State} (h : SameButMem s s') : s'.pc = s.pc := by obtain ⟨m, rfl⟩ := h; rfl

theorem SameButMem.fatal_eq {s s' : State} (h : SameButMem s s') : s'.fatal = s.fatal := by obtain ⟨m, rfl⟩ := h; rfl

theorem SameButMem.table_eq {s s' : State} (h : SameButMem s s') : s'.table = s.table := by obtain ⟨m, rfl⟩ := h; rfl

theorem SameButMem.advancePc {s s' : State} (h : SameButMem s s') (k : Nat) : SameButMem (s.advancePc k) (s'.advancePc k) := by
  obtain ⟨m, rfl⟩ := h
  exact ⟨m, rfl⟩

theorem SameButMem.raise {s s' : State} (h : SameButMem s s') (fault : Fault) : SameButMem (s.raise fault) (s'.raise fault) := by
  obtain ⟨m, rfl⟩ := h
  exact ⟨m, rfl⟩

/-- A record reads neither memory nor `started`. -/
theorem record_with_mem_started (s : State) (m : Memory) (b : Bool) :
    record { s with mem := m, started := b } = { record s with mem := m, started := b } := by
  by_cases hs : s.fatal = none
  · have hsnap : snapshot { s with mem := m, started := b } = snapshot s := rfl
    have hexpected : ({ s with mem := m, started := b } : State).expectedNext = s.expectedNext := rfl
    rw [record_of_running hs, record_of_running (s := { s with mem := m, started := b }) hs, hsnap, traceRecord, traceRecord,
      hexpected]
    cases s.expectedNext with
    | none => rfl
    | some entry => by_cases heq : snapshot s = entry <;> simp [heq, State.raise]
  · obtain ⟨fault, hs⟩ := Option.ne_none_iff_exists'.1 hs
    rw [record_of_fatal hs, record_of_fatal (s := { s with mem := m, started := b }) hs]

theorem SameButMem.record {s s' : State} (h : SameButMem s s') : SameButMem (record s) (record s') := by
  obtain ⟨m, rfl⟩ := h
  exact ⟨m, (record_with_mem_started s m s.started).trans (by rw [record_started])⟩

theorem exec_ldIndBcA (s : State) : exec .ldIndBcA s = .next { s with mem := Memory.poke s.mem (s.readPair .bc).toNat s.a } :=
  storeByte_eq s (s.readPair .bc) s.a _

theorem exec_ldIndDeA (s : State) : exec .ldIndDeA s = .next { s with mem := Memory.poke s.mem (s.readPair .de).toNat s.a } :=
  storeByte_eq s (s.readPair .de) s.a _

theorem writePair_with_mem (s : State) (p : Pair) (v : Word) (m : Memory) :
    ({ s with mem := m } : State).writePair p v = { s.writePair p v with mem := m } := by
  cases p <;> rfl

theorem readPair_with_mem (s : State) (p : Pair) (m : Memory) : ({ s with mem := m } : State).readPair p = s.readPair p := by
  cases p <;> rfl

theorem incHl_with_mem (s : State) (m : Memory) : ({ s with mem := m } : State).incHl = { s.incHl with mem := m } := by
  rw [State.incHl, State.incHl, readPair_with_mem, writePair_with_mem]

theorem decHl_with_mem (s : State) (m : Memory) : ({ s with mem := m } : State).decHl = { s.decHl with mem := m } := by
  rw [State.decHl, State.decHl, readPair_with_mem, writePair_with_mem]

theorem exec_ldIndHlIncA (s : State) :
    exec .ldIndHlIncA s = .next { s.incHl with mem := Memory.poke s.mem (s.readPair .hl).toNat s.a } := by
  rw [← incHl_with_mem]
  exact storeByte_eq s (s.readPair .hl) s.a fun s' => .next s'.incHl

theorem exec_ldIndHlDecA (s : State) :
    exec .ldIndHlDecA s = .next { s.decHl with mem := Memory.poke s.mem (s.readPair .hl).toNat s.a } := by
  rw [← decHl_with_mem]
  exact storeByte_eq s (s.readPair .hl) s.a fun s' => .next s'.decHl

/-- An instruction that has its immediate reads no memory: it does the same whatever the memory is. -/
theorem SameButMem.exec {i : Instr} {s s' t : State} (h : SameButMem s s') (hexec : exec i s = .next t) :
    ∃ t', exec i s' = .next t' ∧ SameButMem t t' := by
  obtain ⟨m, rfl⟩ := h
  cases i with
  | ldIndBcA => cases (exec_ldIndBcA s).symm.trans hexec; exact ⟨_, exec_ldIndBcA _, _, rfl⟩
  | ldIndDeA => cases (exec_ldIndDeA s).symm.trans hexec; exact ⟨_, exec_ldIndDeA _, _, rfl⟩
  | ldIndHlIncA => cases (exec_ldIndHlIncA s).symm.trans hexec; exact ⟨_, exec_ldIndHlIncA _, _, by rw [incHl_with_mem]⟩
  | ldIndHlDecA => cases (exec_ldIndHlDecA s).symm.trans hexec; exact ⟨_, exec_ldIndHlDecA _, _, by rw [decHl_with_mem]⟩
  | jrNzR8 r8 =>
    cases hexec
    refine ⟨_, rfl, m, ?_⟩
    have hflag : ({ s with mem := m } : State).readFlag .z = s.readFlag .z := rfl
    rw [hflag]
    split <;> rfl
  | _ => cases hexec; exact ⟨_, rfl, m, rfl⟩

/-- The memory of `s'` has the bytes of `s` at `pc`, `n` of them. -/
def SameBytes (n : Nat) (s s' : State) : Prop :=
  ∀ k, k < n → s'.byteAt (s.pc + BitVec.ofNat 16 k) = s.byteAt (s.pc + BitVec.ofNat 16 k)

theorem SameBytes.first {n : Nat} {s s' : State} (h : SameBytes n s s') (hn : 0 < n) : s'.byteAt s.pc = s.byteAt s.pc := by
  simpa using h 0 hn

theorem SameBytes.second {n : Nat} {s s' : State} (h : SameBytes n s s') (hn : 1 < n) :
    s'.byteAt (s.pc + 1) = s.byteAt (s.pc + 1) := h 1 hn

theorem SameBytes.mono {n n' : Nat} {s s' : State} (h : SameBytes n s s') (hn : n' ≤ n) : SameBytes n' s s' :=
  fun k hk => h k (Nat.lt_of_lt_of_le hk hn)

/-- The bytes after the first `j` are the bytes at `pc` once it has moved past those. -/
theorem SameBytes.advancePc {j n : Nat} {s s' : State} (h : SameBytes (j + n) s s') :
    SameBytes n (s.advancePc j) (s'.advancePc j) := fun k hk => by
  have hbyte := h (j + k) (Nat.add_lt_add_left hk j)
  rwa [BitVec.ofNat_add, ← BitVec.add_assoc] at hbyte

theorem headerBytes_pos (b0 : Byte) : 0 < headerBytes b0 := by
  rw [headerBytes]; split <;> decide

/-- The bytes before the immediate decide the key and where the effect starts. -/
theorem SameBytes.key {s s' : State} (h : SameBytes (headerBytes (s.byteAt s.pc)) s s') (hpc : s'.pc = s.pc) : s'.key = s.key := by
  have hfirst := h.first (headerBytes_pos _)
  cases hp : prefixBank (s.byteAt s.pc) with
  | none => rw [key_of_prefixBank_none hp, key_of_prefixBank_none (by rwa [hpc, hfirst]), hpc, hfirst]
  | some bank =>
    have hsecond := h.second (by rw [headerBytes_of_prefixBank_some hp]; decide)
    rw [key_of_prefixBank_some hp, key_of_prefixBank_some (by rwa [hpc, hfirst]), hpc, hsecond]

/-- Only the bytes that an immediate has matter to it. -/
theorem withOperand_congr {i : Instr} {lo lo' hi hi' : Byte} (hlo : 0 < i.operandBytes → lo' = lo)
    (hhi : 1 < i.operandBytes → hi' = hi) : i.withOperand lo' hi' = i.withOperand lo hi := by
  have hle := operandBytes_le i
  obtain hn | hn | hn : i.operandBytes = 0 ∨ i.operandBytes = 1 ∨ i.operandBytes = 2 := by omega
  · rw [withOperand_of_none hn, withOperand_of_none hn]
  · rw [hlo (by omega), withOperand_of_one hn lo hi' hi]
  · rw [hlo (by omega), hhi (by omega)]

theorem execute_of_not_immediateFails {i : Instr} {s : State} (h : ¬ImmediateFails i s) :
    execute (.instr i) s = exec (i.withOperand (s.byteAt s.pc) (s.byteAt (s.pc + 1))) (s.advancePc i.operandBytes) := by
  rw [execute_instr, if_neg h]

/-- `Execute` of an instruction depends on memory through its immediate only. -/
theorem SameButMem.execute {i : Instr} {s s' t : State} (h : SameButMem s s') (hbytes : SameBytes i.operandBytes s s')
    (hexec : execute (.instr i) s = .next t) : ∃ t', execute (.instr i) s' = .next t' ∧ SameButMem t t' := by
  by_cases hfails : ImmediateFails i s
  · rw [execute_of_immediateFails hfails] at hexec
    cases hexec
    exact ⟨_, execute_of_immediateFails ⟨hfails.1, h.pc_eq.trans hfails.2⟩, h.raise _⟩
  · rw [execute_of_not_immediateFails hfails] at hexec
    have hreads : ¬ImmediateFails i s' := fun hfails' => hfails ⟨hfails'.1, h.pc_eq.symm.trans hfails'.2⟩
    rw [execute_of_not_immediateFails hreads, h.pc_eq, withOperand_congr hbytes.first hbytes.second]
    exact (h.advancePc _).exec hexec

theorem headerBytes_le_bytesRead (s : State) : headerBytes (s.byteAt s.pc) ≤ bytesRead s := by
  rw [bytesRead]
  split
  · exact Nat.le_add_right _ _
  · exact Nat.le_refl _

/-- The bytes at `pc` decode to the instruction that their key has. -/
theorem decodeWith_window_of_lookup_some {s : State} {row : TableRow} {i : Instr}
    (h : lookup s.table s.key.1 s.key.2 = some row) (he : row.effect = .instr i) :
    ∃ lo hi rest, decodeWith s.table s.window = .ok (i.withOperand lo hi, rest) := by
  have hentry := lookupEntry_of_lookup_some h
  rcases lookupEntry_cases s with ⟨_, _, rest, -, hinstr, hok, hd⟩ | ⟨_, _, _, _, -, hwritten, hok, -⟩ | ⟨_, _, herror, -⟩
  · cases hentry.symm.trans hok
    cases he.symm.trans hinstr
    exact ⟨_, _, rest, hd⟩
  · cases hentry.symm.trans hok
    cases he.symm.trans hwritten
  · cases hentry.symm.trans herror

theorem bytesRead_of_lookup_some {s : State} {row : TableRow} {i : Instr} (h : lookup s.table s.key.1 s.key.2 = some row)
    (he : row.effect = .instr i) : bytesRead s = headerBytes (s.byteAt s.pc) + i.operandBytes := by
  obtain ⟨lo, hi, rest, hd⟩ := decodeWith_window_of_lookup_some h he
  simp only [bytesRead, hd, operandBytes_withOperand]

/-- The same bytes spell the same key, and the instruction found there reads its immediate and no more. -/
theorem SameButMem.step {s s' t : State} (h : SameButMem s s') (htable : instructionsOnly s.table = true)
    (hbytes : SameBytes (bytesRead s) s s') (hstep : step s = .next t) : ∃ t', step s' = .next t' ∧ SameButMem t t' := by
  by_cases hs : s.fatal = none
  · have hs' : s'.fatal = none := h.fatal_eq.trans hs
    have hheader := hbytes.mono (headerBytes_le_bytesRead s)
    have hat : s'.atEffect = s'.advancePc (headerBytes (s.byteAt s.pc)) := by
      rw [State.atEffect, h.pc_eq, hheader.first (headerBytes_pos _)]
    have hlookup : lookup s'.table s'.key.1 s'.key.2 = lookup s.table s.key.1 s.key.2 := by
      rw [h.table_eq, hheader.key h.pc_eq]
    cases hl : lookup s.table s.key.1 s.key.2 with
    | none =>
      rw [step_of_lookup_none hs hl] at hstep
      cases hstep
      refine ⟨_, step_of_lookup_none hs' (hlookup.trans hl), ?_⟩
      rw [hheader.key h.pc_eq, hat]
      exact (h.advancePc _).raise _
    | some row =>
      obtain ⟨i, hi⟩ := instr_of_instructionsOnly htable (lookup_some hl).1
      obtain ⟨u, hu⟩ := execute_next (.instr i) s.atEffect
      rw [bytesRead_of_lookup_some hl hi] at hbytes
      obtain ⟨u', hu', hsame⟩ := (h.advancePc _).execute hbytes.advancePc hu
      rw [step_of_lookup_some hs hl, hi, hu] at hstep
      cases hstep
      exact ⟨_, by rw [step_of_lookup_some hs' (hlookup.trans hl), hi, hat, hu', finish], hsame.record⟩
  · have hs' : s'.fatal ≠ none := fun hnone => hs (h.fatal_eq.symm.trans hnone)
    rw [step_latched hs] at hstep
    cases hstep
    exact ⟨s', step_latched hs', h⟩

/-- Settles O38: the other memory has the bytes of the instruction at `pc`. -/
theorem stepSeesOnlyItsOwnInstructionBytes : Obligations.StepSeesOnlyItsOwnInstructionBytes := by
  intro s t m htable hbytes hstep
  obtain ⟨t', hstep', _, rfl⟩ := SameButMem.step ⟨m, rfl⟩ htable hbytes hstep
  exact ⟨_, hstep', rfl⟩

end Sys2Proof.Machine
end
section
/-! PROOFS. The host's operations (spec/48_host_operations.md). First registration: of the entries registered in a row the last with a
key is the one looked up, so the order matters only where a key comes twice (R201). Then `Startup` (R206): a table entry's effect,
instruction or not, is a written one, and those do not see `started`. Last presets (R204), loads (R202) and the step on a registered
key (R201). -/

namespace Sys2Proof.Machine

/-! ### Registrations (R201) -/

/-- Of the entries registered the last with the key is found, else what the table had. -/
theorem lookup_foldl_registerRow (rows t : OpcodeTable) (bank : Bank) (opcode : Byte) :
    lookup (rows.foldl registerRow t) bank opcode = (lookup rows.reverse bank opcode).or (lookup t bank opcode) := by
  induction rows generalizing t with
  | nil => rfl
  | cons row rows ih =>
    have hrow : lookup (registerRow t row) bank opcode = (lookup [row] bank opcode).or (lookup t bank opcode) := by
      rw [registerReplacesOneEntry]
      by_cases hkey : row.bank = bank ∧ row.opcode = opcode
      · rw [if_pos hkey, lookup_cons_of_key hkey, Option.some_or]
      · rw [if_neg hkey, lookup_cons_of_not_key hkey]; rfl
    have happend : lookup (rows.reverse ++ [row]) bank opcode =
        (lookup rows.reverse bank opcode).or (lookup [row] bank opcode) := List.find?_append
    rw [List.foldl_cons, ih, hrow, List.reverse_cons, happend, Option.or_assoc]

theorem not_key_of_lookup_none {t : OpcodeTable} {bank : Bank} {opcode : Byte} (h : lookup t bank opcode = none) {row : TableRow}
    (hrow : row ∈ t) : ¬(row.bank = bank ∧ row.opcode = opcode) :=
  mt hasKey_iff.2 (List.find?_eq_none.1 h row hrow)

/-- In a table with no key twice, lookup does not depend on the order of the entries. -/
theorem lookup_eq_of_perm {rows t : OpcodeTable} (ht : tableWellFormed t = true) (hperm : rows.Perm t) (bank : Bank)
    (opcode : Byte) : lookup rows bank opcode = lookup t bank opcode := by
  cases hl : lookup rows bank opcode with
  | some row =>
    obtain ⟨hmem, rfl, rfl⟩ := lookup_some hl
    exact (lookup_of_mem ht (hperm.mem_iff.1 hmem)).symm
  | none =>
    cases hl' : lookup t bank opcode with
    | none => rfl
    | some row =>
      obtain ⟨hmem, hkey⟩ := lookup_some hl'
      exact absurd hkey (not_key_of_lookup_none hl (hperm.mem_iff.2 hmem))

/-- Settles O17: no key of the baseline table occurs twice. -/
theorem orderOfRegistrationsDoesNotMatter : Obligations.OrderOfRegistrationsDoesNotMatter := by
  intro rows hperm bank opcode
  rw [lookup_foldl_registerRow, show lookup [] bank opcode = none from rfl, Option.or_none]
  exact lookup_eq_of_perm baselineTable_wellFormed (rows.reverse_perm.trans hperm) bank opcode

/-! ### The launch (R208) -/

/-- Settles O44: each operation of the host keeps the invariant. -/
theorem launchSatisfiesTheInvariant : Obligations.LaunchSatisfiesTheInvariant := launch_inv

/-! ### `Startup` (R206) -/

/-- What a table entry does is what some written effect does (R75). -/
theorem exists_written (effect : RowEffect) : ∃ e, ∀ s, execute effect s = .next (runEffect e [] s) := by
  cases effect with
  | written e => exact ⟨e, execute_written e⟩
  | instr i => exact ⟨i.pseudocode, fun s => (pseudocodeIsTheMeaning i s).symm.trans (execute_written _ s)⟩

theorem runEffect_hostStartup (e : Effect) (slots : List Int) (s : State) :
    runEffect e slots s.hostStartup = (runEffect e slots s).hostStartup := by
  have houtside : s.hostStartup = s.withOutside s.hostStartup := rfl
  obtain ⟨htrace, hcount, -, htable, hexpected⟩ := runEffect_outer e slots s
  rw [houtside, runEffect_withOutside]
  simp only [State.withOutside, State.hostStartup, htrace, hcount, htable, hexpected]

theorem execute_hostStartup {effect : RowEffect} {s t : State} (h : execute effect s = .next t) :
    execute effect s.hostStartup = .next t.hostStartup := by
  obtain ⟨e, he⟩ := exists_written effect
  rw [he] at h ⊢
  cases h
  rw [runEffect_hostStartup]

theorem record_hostStartup (s : State) : record s.hostStartup = (record s).hostStartup :=
  (record_with_mem_started s s.mem true).trans (by rw [← record_mem s]; rfl)

/-- No part of a step reads `started`. -/
theorem step_hostStartup {s t : State} (h : step s = .next t) : step s.hostStartup = .next t.hostStartup := by
  by_cases hs : s.fatal = none
  · cases hl : lookup s.table s.key.1 s.key.2 with
    | none =>
      rw [step_of_lookup_none hs hl] at h
      cases h
      exact step_of_lookup_none (s := s.hostStartup) hs hl
    | some row =>
      obtain ⟨u, hu⟩ := execute_next row.effect s.atEffect
      rw [step_of_lookup_some hs hl, hu] at h
      cases h
      have hu' : execute row.effect s.hostStartup.atEffect = .next u.hostStartup := execute_hostStartup hu
      rw [step_of_lookup_some (s := s.hostStartup) hs hl, hu', finish, record_hostStartup]
  · rw [step_latched hs] at h
    cases h
    exact step_latched (s := s.hostStartup) hs

/-- Settles O50, by the parts of a step. -/
theorem startupOnlyMarksStarted : Obligations.StartupOnlyMarksStarted := fun _ _ => ⟨rfl, step_hostStartup⟩

/-! ### Presets (R204) -/

theorem hostDo_of_running {s : State} (hs : s.fatal = none) (op : State → State) : s.hostDo op = op s :=
  if_neg (by simp [hs])

/-- A preset changes the register bank only. -/
theorem applyPreset_frame (s : State) (p : Preset) :
    applyPreset s p = { applyPreset s p with
      mem := s.mem, trace := s.trace, count := s.count, fatal := s.fatal, started := s.started, table := s.table,
      expected := s.expected } := by
  cases p with
  | reg r v => cases r <;> rfl
  | pair p v => cases p <;> rfl
  | sp | pc | flag => rfl

theorem applyPreset_fatal (s : State) (p : Preset) : (applyPreset s p).fatal = s.fatal := by rw [applyPreset_frame]

theorem foldl_hostPreset_of_running (presets : List Preset) {s : State} (hs : s.fatal = none) :
    presets.foldl State.hostPreset s = presets.foldl applyPreset s := by
  induction presets generalizing s with
  | nil => rfl
  | cons p presets ih =>
    have hp : s.hostPreset p = applyPreset s p := hostDo_of_running hs _
    rw [List.foldl_cons, List.foldl_cons, hp, ih ((applyPreset_fatal s p).trans hs)]

/-- Settles O51: the presets of the entry state are six writes of known values. -/
theorem presetsReachTheEntryState : Obligations.PresetsReachTheEntryState := by
  refine ⟨applyPreset_frame, fun s hs => ?_, fun s hf => ?_⟩
  · rw [foldl_hostPreset_of_running _ hs]
    rfl
  · simp only [State.readFlag, hf]
    decide

/-! ### Loads (R202) -/

/-- Settles O53: the load is refused before it copies, and its fatal stays latched. -/
theorem overrunningLoadIsFatal : Obligations.OverrunningLoadIsFatal := by
  intro s bytes offset hs hout
  have hload : s.hostLoad bytes offset = s.raise (.outOfBounds offset bytes.length) := by
    rw [State.hostLoad, hostDo_of_running hs, load_outside (not_inBounds (.inr hout)), State.setMemory]
  rw [hload]
  exact ⟨rfl, step_latched (Option.some_ne_none _)⟩

/-! ### The step on a registered key (R103, R201) -/

theorem lookup_registerRow_self (t : OpcodeTable) (row : TableRow) : lookup (registerRow t row) row.bank row.opcode = some row :=
  lookup_cons_of_key ⟨rfl, rfl⟩ _

/-- What it means that the `n` bytes at `pc` spell a key (R102). -/
theorem key_of_spelled {s : State} {bank : Bank} {opcode : Byte} {n : Nat}
    (h : (n = 1 ∧ prefixBank (s.byteAt s.pc) = none ∧ bank = .default ∧ opcode = s.byteAt s.pc) ∨
      (n = 2 ∧ prefixBank (s.byteAt s.pc) = some bank ∧ opcode = s.byteAt (s.pc + 1))) :
    s.key = (bank, opcode) ∧ s.atEffect = s.advancePc n := by
  rcases h with ⟨rfl, hp, rfl, rfl⟩ | ⟨rfl, hp, rfl⟩
  · exact ⟨key_of_prefixBank_none hp, by rw [State.atEffect, headerBytes_of_prefixBank_none hp]⟩
  · exact ⟨key_of_prefixBank_some hp, by rw [State.atEffect, headerBytes_of_prefixBank_some hp]⟩

theorem record_eq (s : State) : record s = if s.fatal = none then traceRecord (snapshot s) s else s := by
  by_cases hs : s.fatal = none
  · rw [if_pos hs, record_of_running hs]
  · obtain ⟨fault, hfault⟩ := Option.ne_none_iff_exists'.1 hs
    rw [if_neg hs, record_of_fatal hfault]

/-- Settles O55: the bytes spell the key, lookup finds the entry registered, and the record looks at the latch the effect left. -/
theorem registeredEffectRuns : Obligations.RegisteredEffectRuns := by
  intro s row e n hs he hspelled
  have hregister : s.hostRegister row = { s with table := registerRow s.table row } := hostDo_of_running hs _
  obtain ⟨hkey, hat⟩ : (s.hostRegister row).key = (row.bank, row.opcode) ∧
      (s.hostRegister row).atEffect = (s.hostRegister row).advancePc n := by
    rw [hregister]
    exact key_of_spelled hspelled
  have hl : lookup (s.hostRegister row).table (s.hostRegister row).key.1 (s.hostRegister row).key.2 = some row := by
    rw [hkey, hregister]
    exact lookup_registerRow_self s.table row
  have hrunning : (s.hostRegister row).fatal = none := by rw [hregister]; exact hs
  rw [step_of_lookup_some hrunning hl, he, execute_written, finish, record_eq, hat]

end Sys2Proof.Machine
end
section
/-! PROOFS. Fatals (spec/60_exceptions.md). First where a step raises `OutOfBounds` over instructions (R222): where the entry found reads a
word and the word is at 0xFFFF; the baseline table has five such entries. Then the unassigned encodings (R221), counted as the bytes
outside the opcodes that a bank has. -/

namespace Sys2Proof.Machine

/-! ### `OutOfBounds` (R222) -/

theorem step_of_immediateFails {s : State} {row : TableRow} {i : Instr} (hs : s.fatal = none)
    (hl : lookup s.table s.key.1 s.key.2 = some row) (he : row.effect = .instr i) (hfails : ImmediateFails i s.atEffect) :
    step s = .next (s.atEffect.raise (.outOfBounds 0xFFFF 2)) := by
  rw [step_of_lookup_some hs hl, he, execute_of_immediateFails hfails, finish, record_of_fatal (raise_fatal _ _)]

/-- Over a table of instructions a step raises `OutOfBounds` for the immediate of the entry found and for nothing else. -/
theorem immediateFails_of_outOfBounds {s t : State} {addr : Int} {size : Nat} (hs : s.fatal = none)
    (htable : instructionsOnly s.table = true) (hstep : step s = .next t) (ht : t.fatal = some (.outOfBounds addr size)) :
    ∃ row i, lookup s.table s.key.1 s.key.2 = some row ∧ row.effect = .instr i ∧ ImmediateFails i s.atEffect := by
  cases hl : lookup s.table s.key.1 s.key.2 with
  | none =>
    rw [step_of_lookup_none hs hl] at hstep
    cases hstep
    cases ht
  | some row =>
    obtain ⟨i, hi⟩ := instr_of_instructionsOnly htable (lookup_some hl).1
    refine ⟨row, i, rfl, hi, ?_⟩
    by_contra hreads
    obtain ⟨u, hexec⟩ := exec_next (i.withOperand (s.atEffect.byteAt s.atEffect.pc) (s.atEffect.byteAt (s.atEffect.pc + 1)))
      (s.atEffect.advancePc i.operandBytes)
    rw [step_of_lookup_some hs hl, hi, execute_of_not_immediateFails hreads, hexec] at hstep
    cases hstep
    obtain ⟨-, -, hfatal, -⟩ := exec_outer hexec
    exact Option.some_ne_none _ ((fatal_of_record_outOfBounds ht).symm.trans (hfatal.trans hs))

/-- The opcodes with a word immediate (R81; D5, assumption log 5). -/
def wordOpcodes : List Byte := [0x01, 0x11, 0x21, 0x31, 0xC3]

/-- Whether an effect is that of an instruction with a word immediate (R77). -/
def readsWord : RowEffect → Bool
  | .instr i => i.operandBytes == 2
  | .written _ => false

theorem readsWord_iff (effect : RowEffect) : readsWord effect = true ↔ ∃ i, effect = .instr i ∧ i.operandBytes = 2 := by
  cases effect <;> simp [readsWord]

theorem baselineTable_instructionsOnly : instructionsOnly baselineTable = true := by decide

theorem baselineTable_readsWord :
    ∀ row ∈ baselineTable, readsWord row.effect = true → row.bank = .default ∧ row.opcode ∈ wordOpcodes := by decide

theorem entry_of_wordOpcode :
    ∀ opcode ∈ wordOpcodes, prefixBank opcode = none ∧
      ∃ row ∈ baselineTable, row.bank = .default ∧ row.opcode = opcode ∧ readsWord row.effect = true := by decide

theorem prefixBank_of_key_default {s : State} (h : s.key.1 = .default) :
    prefixBank (s.byteAt s.pc) = none ∧ s.key.2 = s.byteAt s.pc := by
  cases hp : prefixBank (s.byteAt s.pc) with
  | none => exact ⟨rfl, by rw [key_of_prefixBank_none hp]⟩
  | some bank =>
    obtain rfl : bank = .default := by rwa [key_of_prefixBank_some hp] at h
    exact absurd hp (prefixBank_ne_default _)

/-- With an opcode of one byte, an effect starts at 0xFFFF where the opcode is at 0xFFFE. -/
theorem atEffect_pc_eq_top_iff {s : State} (h : prefixBank (s.byteAt s.pc) = none) : s.atEffect.pc = 0xFFFF ↔ s.pc = 0xFFFE := by
  rw [State.atEffect, headerBytes_of_prefixBank_none h, advancePc_pc]
  constructor <;> intro hpc <;> bv_omega

/-- Under the baseline table the immediate that cannot be read is that of one of the five opcodes, at 0xFFFE. -/
theorem exists_immediateFails_iff {s : State} (htable : s.table = baselineTable) :
    (∃ row i, lookup s.table s.key.1 s.key.2 = some row ∧ row.effect = .instr i ∧ ImmediateFails i s.atEffect) ↔
      s.pc = 0xFFFE ∧ s.byteAt 0xFFFE ∈ wordOpcodes := by
  constructor
  · rintro ⟨row, i, hl, he, htwo, htop⟩
    obtain ⟨hmem, hbank, hopcode⟩ := lookup_some hl
    obtain ⟨hdefault, hword⟩ := baselineTable_readsWord row (htable ▸ hmem) ((readsWord_iff _).2 ⟨i, he, htwo⟩)
    obtain ⟨hp, hkey⟩ := prefixBank_of_key_default (hbank.symm.trans hdefault)
    have hpc := (atEffect_pc_eq_top_iff hp).1 htop
    rw [hopcode, hkey, hpc] at hword
    exact ⟨hpc, hword⟩
  · rintro ⟨hpc, hword⟩
    rw [← hpc] at hword
    obtain ⟨hp, row, hmem, hbank, hopcode, hreads⟩ := entry_of_wordOpcode _ hword
    obtain ⟨i, he, htwo⟩ := (readsWord_iff _).1 hreads
    refine ⟨row, i, ?_, he, htwo, (atEffect_pc_eq_top_iff hp).2 hpc⟩
    rw [key_of_prefixBank_none hp, htable, ← hbank, ← hopcode]
    exact lookup_of_mem baselineTable_wellFormed hmem

/-- Settles O34: the step raises `OutOfBounds` exactly where the immediate of the entry found cannot be read. -/
theorem outOfBoundsOnlyAtTheTopOfMemory : Obligations.OutOfBoundsOnlyAtTheTopOfMemory := by
  intro s t hs htable hstep
  have hinstr : instructionsOnly s.table = true := htable ▸ baselineTable_instructionsOnly
  refine ⟨Iff.trans ⟨?_, ?_⟩ (exists_immediateFails_iff htable), fun addr size ht => ?_⟩
  · rintro ⟨addr, size, ht⟩
    exact immediateFails_of_outOfBounds hs hinstr hstep ht
  · rintro ⟨row, i, hl, he, hfails⟩
    cases hstep.symm.trans (step_of_immediateFails hs hl he hfails)
    exact ⟨_, _, rfl⟩
  · obtain ⟨row, i, hl, he, hfails⟩ := immediateFails_of_outOfBounds hs hinstr hstep ht
    cases hstep.symm.trans (step_of_immediateFails hs hl he hfails)
    cases ht
    exact ⟨rfl, rfl, hfails.2⟩

/-! ### Unassigned encodings (R221) -/

/-- The opcodes of a table's entries in a bank. -/
def opcodesOf (t : OpcodeTable) (bank : Bank) : List Byte := (t.filter fun row => row.bank == bank).map TableRow.opcode

theorem lookup_eq_none_iff (t : OpcodeTable) (bank : Bank) (opcode : Byte) :
    lookup t bank opcode = none ↔ opcode ∉ opcodesOf t bank := by
  simp [lookup, opcodesOf, TableRow.hasKey]

theorem decodeOperand_error {i : Instr} {bytes : List Byte} {e : DecodeError} (h : decodeOperand i bytes = .error e) :
    e = .truncated := by
  unfold decodeOperand at h
  split at h <;> cases h
  rfl

/-- The decoder calls a key unassigned where the bank does not have the opcode, whatever bytes follow. -/
theorem decodeIn_unassigned_iff {t : OpcodeTable} {bank bank' : Bank} {opcode opcode' : Byte} {bytes : List Byte} :
    decodeIn t bank opcode bytes = .error (.unassigned bank' opcode') ↔
      (bank = bank' ∧ opcode = opcode') ∧ opcode ∉ opcodesOf t bank := by
  rw [← lookup_eq_none_iff]
  cases hl : lookup t bank opcode with
  | none => simp [decodeIn, hl]
  | some row =>
    refine iff_of_false (fun h => ?_) (by simp)
    cases he : row.effect with
    | instr i => rw [decodeIn_instr hl he] at h; cases decodeOperand_error h
    | written e => simp [decodeIn, hl, he] at h

/-- `PREFIX_BYTES` (R6; D2, assumption log 4). -/
def prefixBytes : List Byte := [0xCB, 0xDD, 0xED, 0xFD]

theorem prefixBank_eq_none_iff (b0 : Byte) : prefixBank b0 = none ↔ b0 ∉ prefixBytes := by
  simp only [prefixBank, prefixBytes, List.mem_cons, List.not_mem_nil, or_false, not_or]
  split_ifs <;> simp only [*, not_true_eq_false, not_false_eq_true, false_and, and_false, and_self]

/-- A first byte is unassigned where it is neither a lead byte nor an opcode of the default bank. -/
theorem decode_first_unassigned_iff (b0 : Byte) :
    decode [b0, 0, 0] = .error (.unassigned .default b0) ↔ b0 ∉ prefixBytes ++ opcodesOf baselineTable .default := by
  rw [List.mem_append, not_or, ← prefixBank_eq_none_iff]
  cases hp : prefixBank b0 with
  | none => simp [decode, decodeWith, hp, decodeIn_unassigned_iff]
  | some bank =>
    have hne : bank ≠ .default := fun h => prefixBank_ne_default b0 (h ▸ hp)
    simp [decode, decodeWith, hp, decodeIn_unassigned_iff, hne]

/-- After a lead byte an opcode byte is unassigned where the bank does not have it. -/
theorem decode_after_lead_unassigned_iff {bank : Bank} (hbank : bank ≠ .default) (opcode : Byte) (rest : List Byte) :
    decode (leadBytes bank ++ opcode :: rest) = .error (.unassigned bank opcode) ↔ opcode ∉ opcodesOf baselineTable bank := by
  rw [decode, decodeWith_leadBytes _ (fun h => absurd h hbank), decodeIn_unassigned_iff, and_iff_right ⟨rfl, rfl⟩]

/-- Of the 256 bytes, those outside a list of different bytes are 256 less its length. -/
theorem length_filter_range_not_mem {assigned : List Byte} (hnodup : assigned.Nodup) {p : Nat → Bool}
    (hp : ∀ k, p k = true ↔ BitVec.ofNat 8 k ∉ assigned) : ((List.range 256).filter p).length = 256 - assigned.length := by
  have hassigned : ((List.range 256).filter fun k => !p k).Perm (assigned.map BitVec.toNat) := by
    refine (List.perm_ext_iff_of_nodup (List.nodup_range.filter _) (hnodup.map fun _ _ => BitVec.eq_of_toNat_eq)).2 fun k => ?_
    simp only [List.mem_filter, List.mem_range, Bool.not_eq_true', ← Bool.not_eq_true, hp, not_not, List.mem_map]
    constructor
    · rintro ⟨hk, hmem⟩
      exact ⟨_, hmem, (BitVec.toNat_ofNat _ _).trans (Nat.mod_eq_of_lt hk)⟩
    · rintro ⟨b, hmem, rfl⟩
      exact ⟨b.isLt, by rwa [BitVec.ofNat_toNat, BitVec.setWidth_eq]⟩
  have hsum := List.length_eq_length_filter_add (l := List.range 256) p
  rw [hassigned.length_eq, List.length_range, List.length_map] at hsum
  omega

/-- Settles O14: a bank's unassigned opcodes are those outside its list, of 18 and of 56; the lists of the other banks are empty. -/
theorem unassignedEncodingsAreCounted : Obligations.UnassignedEncodingsAreCounted := by
  refine ⟨?_, ?_, fun opcode rest => ⟨?_, ?_, ?_⟩, ?_⟩
  · exact length_filter_range_not_mem (assigned := prefixBytes ++ opcodesOf baselineTable .default) (by decide)
      fun k => decide_eq_true_iff.trans (decode_first_unassigned_iff _)
  · exact length_filter_range_not_mem (assigned := opcodesOf baselineTable .cb) (by decide)
      fun k => decide_eq_true_iff.trans (decode_after_lead_unassigned_iff (bank := .cb) (by decide) _ [])
  · exact (decode_after_lead_unassigned_iff (bank := .dd) (by decide) opcode rest).2 List.not_mem_nil
  · exact (decode_after_lead_unassigned_iff (bank := .ed) (by decide) opcode rest).2 List.not_mem_nil
  · exact (decode_after_lead_unassigned_iff (bank := .fd) (by decide) opcode rest).2 List.not_mem_nil
  · exact (decode_after_lead_unassigned_iff (bank := .cb) (by decide) 0xCB []).2 (by decide)

end Sys2Proof.Machine
end
section
/-! PROOFS. Reset (spec/70_reset_and_hazards.md). The reset state is read off its definition (R250); the launch with the 74 registrations
and nothing else differs from it in `started` and in the order of the table (R254). -/

namespace Sys2Proof.Machine

/-- Settles O1: every register is set to zero and no byte of memory is listed. -/
theorem resetIsZeroThroughout : Obligations.ResetIsZeroThroughout := by
  have hreg : ∀ r, State.reset.readReg r = 0 := fun r => by cases r <;> rfl
  have hpair : ∀ p, State.reset.readPair p = 0 := fun p => by rw [State.readPair, hreg, hreg]; rfl
  have hflag : ∀ fl, State.reset.readFlag fl = false := fun fl => BitVec.getLsbD_zero
  exact ⟨hreg, hpair, hflag, rfl, rfl, fun _ => rfl, rfl, rfl, rfl, rfl, rfl⟩

/-- Registrations on a running Machine change its table only (R201). -/
theorem foldl_hostRegister_of_running (rows : OpcodeTable) {s : State} (hs : s.fatal = none) :
    rows.foldl State.hostRegister s = { s with table := rows.foldl registerRow s.table } := by
  induction rows generalizing s with
  | nil => rfl
  | cons row rows ih =>
    have hrow : s.hostRegister row = { s with table := registerRow s.table row } := hostDo_of_running hs _
    rw [List.foldl_cons, List.foldl_cons, hrow, ih (s := { s with table := registerRow s.table row }) hs]

theorem launch_bare :
    launch Launch.bare = { State.construct with table := baselineTable.foldl registerRow [], started := true } := by
  have hregistered : launch Launch.bare = (baselineTable.foldl State.hostRegister State.construct).hostStartup := rfl
  rw [hregistered, foldl_hostRegister_of_running baselineTable rfl]
  rfl

/-- Settles O52: the table populated is the baseline mapping, as after registrations in any order. -/
theorem bareLaunchIsReset : Obligations.BareLaunchIsReset := by
  rw [Obligations.BareLaunchIsReset, launch_bare]
  exact ⟨rfl, orderOfRegistrationsDoesNotMatter baselineTable (List.Perm.refl _)⟩

end Sys2Proof.Machine
end
